-- ==== Sys2Proof/Word.lean ====
section
/-! DEFINITION. The widths of the values the block handles: bytes of the frame register, transport words,
command words and whole frames as bits. -/

namespace Sys2Proof

/-- A frame byte, or an operand of a command word: 8 bits (R20, R90). -/
abbrev Byte := BitVec 8

/-- A transport word: 64 bits, one half-frame (R45; `WORD_BITS` of R6). -/
abbrev TransportWord := BitVec 64

/-- A command word: 20 bits (R90). -/
abbrev CommandWord := BitVec 20

/-- A Command Frame as its 128 bits, numbered by the bit addresses of R42 (bit 0 is the least significant
bit of byte 0). -/
abbrev FrameBits := BitVec 128

end Sys2Proof
end

