-- ==== Sys2Proof/Config.lean ====
section
/-! DEFINITION. The parameters of the block (R6): the fixed constants, and the one parameter `SWINGV_WIRED`,
with the value this hardware takes. The sizes of R6 (16 bytes, 8-byte halves, 64-bit words, seven covered
bytes) are in the types. The spec leaves no value free, so there is no opaque constant here. -/

namespace Sys2Proof.Config

/-- `TEMP_OFFSET` of R6: the device's minimum temperature, what a zero `Temp` field stands for (R77). -/
@[simp] abbrev tempOffset : Byte := 16

/-- `TEMP_MIN` of R6: the lowest temperature of the encoder's contract (R172). -/
@[simp] abbrev tempMin : Byte := 16

/-- `TEMP_MAX` of R6: the highest temperature of the encoder's contract (R172). -/
@[simp] abbrev tempMax : Byte := 30

/-- `AUTO_SETPOINT` of R6: the temperature `ADJUST` forces (R180). -/
@[simp] abbrev autoSetpoint : Byte := 25

/-- `MARK1` of R6: the whole marker byte 3 (R80). -/
@[simp] abbrev mark1 : Byte := 0x50

/-- `MARK2` of R6: the whole marker byte 11 (R80). -/
@[simp] abbrev mark2 : Byte := 0x70

/-- `MIN_RX_WORDS` of R6: the fewest received words `DECODE` accepts (R191). -/
@[simp] abbrev minRxWords : Byte := 2

/-- `SWINGV_WIRED` of R6: whether `ENCODE` writes `SwingV`. DESIGN CHOICE of the spec (D6): 0 for this
hardware. Both arms are defined, since the encoder takes it as an argument. Log entry 9. -/
def swingVWired : Bool := false

end Sys2Proof.Config
end

