-- ==== Sys2Proof/Syntax.lean ====
section
/-! DEFINITION. The instructions: one constructor per row of spec/opcode_table.json. Sixteen operations of
the command word (R91), nine classes of received frame (R93) and the encoded-frame pattern (R83). -/

namespace Sys2Proof

/-- One row of the opcode table each.

The operations carry both operand bytes of the command word, `a` = `cw[15:8]` and `d` = `cw[7:0]`, also
where R92 marks them ignored, so that no bit of an encoding is lost (log entry 15).

A frame class carries every bit of the frame that its mask (R93) leaves open: `rest` is frame bits 127..4,
and `AC.OFF` carries `Mode` as well. `CF.ENCODED` carries the letters of the pattern R83. -/
inductive Instr where
  /-- `FCLR` (R110). -/
  | fclr (a d : Byte)
  /-- `FRDB` (R111). -/
  | frdb (a d : Byte)
  /-- `FWRB` (R112). -/
  | fwrb (a d : Byte)
  /-- `FRDF` (R113). -/
  | frdf (a d : Byte)
  /-- `FWRF` (R114). -/
  | fwrf (a d : Byte)
  /-- `FRDBIT` (R115). -/
  | frdbit (a d : Byte)
  /-- `FWRBIT` (R116). -/
  | fwrbit (a d : Byte)
  /-- `FMIRROR` (R117). -/
  | fmirror (a d : Byte)
  /-- `FPACK` (R118). -/
  | fpack (a d : Byte)
  /-- `FUNPACK` (R119). -/
  | funpack (a d : Byte)
  /-- `CSUM` (R142). -/
  | csum (a d : Byte)
  /-- `CSAPPLY` (R143). -/
  | csapply (a d : Byte)
  /-- `CSCHK` (R144). -/
  | cschk (a d : Byte)
  /-- `ENCODE` (R160). -/
  | encode (a d : Byte)
  /-- `DECODE` (R190). -/
  | decode (a d : Byte)
  /-- `ADJUST` (R180). -/
  | adjust (a d : Byte)
  /-- `AC.OFF`: a received frame with `Power` = 0, any `Mode` (R205). -/
  | acOff (mode : BitVec 3) (rest : BitVec 124)
  /-- `AC.AUTO`: `Power` = 1, `Mode` = 0 (R206). -/
  | acAuto (rest : BitVec 124)
  /-- `AC.COOL`: `Power` = 1, `Mode` = 1 (R207). -/
  | acCool (rest : BitVec 124)
  /-- `AC.DRY`: `Power` = 1, `Mode` = 2 (R208). -/
  | acDry (rest : BitVec 124)
  /-- `AC.FAN`: `Power` = 1, `Mode` = 3 (R209). -/
  | acFan (rest : BitVec 124)
  /-- `AC.HEAT`: `Power` = 1, `Mode` = 4 (R210). -/
  | acHeat (rest : BitVec 124)
  /-- `AC.RSV5`: `Power` = 1, `Mode` = 5 (R211). -/
  | acRsv5 (rest : BitVec 124)
  /-- `AC.RSV6`: `Power` = 1, `Mode` = 6 (R211). -/
  | acRsv6 (rest : BitVec 124)
  /-- `AC.RSV7`: `Power` = 1, `Mode` = 7 (R211). -/
  | acRsv7 (rest : BitVec 124)
  /-- `CF.ENCODED`: the pattern of an encoded frame (R83), its letters in the order `M P F T L V s S`. -/
  | cfEncoded (mode : BitVec 3) (power : BitVec 1) (fan : BitVec 2) (temp : BitVec 4) (light : BitVec 1)
      (swingV : BitVec 4) (sum1 : BitVec 4) (sum2 : BitVec 4)
  deriving DecidableEq, Repr

/-- What is presented to the block to be executed: a command word on the request port (R90), a received
frame, read as a device command by its class (R93), or a frame handed back as one that `ENCODE` built (R83;
log entry 7). -/
inductive Presented where
  | command (w : CommandWord)
  | received (f : FrameBits)
  | encoded (f : FrameBits)
  deriving DecidableEq, Repr

end Sys2Proof
end

