-- ==== Sys2Proof/Machine/State.lean ====
section
/-! DEFINITION. The state of the block and of the ports through which it meets its host, as plain data, and
its value after reset. -/

namespace Sys2Proof.Machine

/-! ### The abstract values (R30, R84 to R88) and the device values (R74, R76, R78) -/

/-- The abstract `mode` (R30); its port codes are R84. -/
inductive AbsMode where
  | off | cool | dry | fanOnly | heat | heatCool
  deriving DecidableEq, Repr

/-- The abstract `fan_mode` when it is set (R30); its port codes are R86. -/
inductive AbsFan where
  | auto | low | medium | high
  deriving DecidableEq, Repr

/-- The abstract `swing_mode` (R30); its port codes are R87. -/
inductive AbsSwing where
  | off | vertical
  deriving DecidableEq, Repr

/-- The defined values of the frame field `Mode` (R74). -/
inductive DevMode where
  | auto | cool | dry | fan | heat
  deriving DecidableEq, Repr

/-- The values of the frame field `BasicFan` (R76). -/
inductive DevFan where
  | auto | min | medium | max
  deriving DecidableEq, Repr

/-- The modelled values of the frame field `SwingV` (R78). -/
inductive DevSwing where
  | off | auto
  deriving DecidableEq, Repr

/-- The fifteen named fields of a frame, in the order of their identifiers (R43, R73). -/
inductive Field where
  | mode | power | basicFan | swingAuto | sleep | temp | turbo | light | ionFilter | xFan | mark1 | swingV
  | sum1 | mark2 | sum2
  deriving DecidableEq, Repr

/-! ### The ports (R50 to R53) -/

/-- The outcome of an operation, `status[1:0]` of its response (R220). -/
inductive Status where
  | ok | unhandledShort | unhandledCsum | badOperand
  deriving DecidableEq, Repr

/-- The climate state read bundle `acs`, sampled by `ENCODE` and `ADJUST` (R51). -/
structure Acs where
  /-- `acs_mode[2:0]` (R84). -/
  mode : BitVec 3
  /-- `acs_temp[7:0]`, whole degrees Celsius, unsigned (R85). -/
  temp : Byte
  /-- `acs_fan_set`: whether `fan_mode` has a value (R86). -/
  fanSet : Bool
  /-- `acs_fan[1:0]`, not read when `fanSet` is false (R86). -/
  fan : BitVec 2
  /-- `acs_swing` (R87). -/
  swing : BitVec 1
  /-- `acs_light` (R88). -/
  light : Bool
  deriving DecidableEq, Repr

/-- The receive bundle `rx`, sampled by `DECODE` and `FUNPACK` (R53). -/
structure Rx where
  /-- `rx_n[7:0]`, the number of data words the receiver delivered. -/
  n : Byte
  /-- `rx_w0[63:0]`. -/
  w0 : TransportWord
  /-- `rx_w1[63:0]`. -/
  w1 : TransportWord
  deriving DecidableEq, Repr

/-- The transmit bundle `tx`, driven by `ENCODE` and `FPACK` (R53). -/
structure Tx where
  /-- `tx_valid`: 1 from `ENCODE`, 0 from `FPACK`. -/
  valid : Bool
  /-- `tx_w0[63:0]`. -/
  w0 : TransportWord
  /-- `tx_w1[63:0]`. -/
  w1 : TransportWord
  deriving DecidableEq, Repr

/-- The climate state write bundle `upd`, driven by `DECODE` (R52). A signal the spec calls not meaningful
or not driven in a response is `none` there (R198, R221; log entry 5). -/
structure Upd where
  /-- `upd_valid`: the host is to merge the update. -/
  valid : Bool
  /-- `upd_mode_we`: `upd_mode` is to be written. -/
  modeWe : Bool
  /-- `upd_mode[2:0]`. -/
  mode : Option (BitVec 3)
  /-- `upd_temp[7:0]`. -/
  temp : Option Byte
  /-- `upd_fan[1:0]`. -/
  fan : Option (BitVec 2)
  deriving DecidableEq, Repr

/-- The climate state write bundle `adj`, driven by `ADJUST` (R52). -/
structure Adj where
  /-- `adj_swing`. -/
  swing : BitVec 1
  /-- `adj_temp[7:0]`. -/
  temp : Byte
  deriving DecidableEq, Repr

/-- A response (R50): the status, the read data, and the output bundles the operation drives; a bundle it
does not drive is `none`. -/
structure Response where
  status : Status
  /-- `q[7:0]`, zero when the operation returns none. -/
  q : Byte
  tx : Option Tx
  upd : Option Upd
  adj : Option Adj
  deriving DecidableEq, Repr

/-- One thing the host does to the block, between two operations (R17, R49, R57). -/
inductive HostAction where
  /-- The reset event (R250). -/
  | reset
  /-- A request: a command word with its input bundles (R50). -/
  | operation (cw : CommandWord) (acs : Acs) (rx : Rx)
  /-- The receiver delivered two words and the host has them decoded (R226); frame bits 63..0 are word 0. -/
  | received (f : FrameBits)
  /-- The two words of a frame that `ENCODE` built are handed back and decoded (R212; log entry 7). -/
  | encoded (f : FrameBits)
  deriving DecidableEq, Repr

/-! ### Stops -/

/-- Why the machine faults. There is no reason: the block never traps, hangs or produces an undefined result
(R14, R230), and its failures are statuses of responses. Log entry 17. -/
inductive Fault where
  deriving DecidableEq, Repr

/-- Why an instruction is refused. -/
inductive Refusal where
  /-- Raised by an arm of `exec` whose instruction has no meaning yet; no arm is such. Safe. -/
  | notModelled (mnemonic : String)
  /-- Raised by `ENCODE` when `acs_mode` is 6 or 7, outside the caller contract: the spec gives no behaviour
  and has a model refuse the request (R172, R225, U7). Safe. Log entry 8. -/
  | encodeModeNamesNoMode
  /-- Raised by `ENCODE` when `acs_temp` is outside 16 to 30, outside the caller contract: the spec gives no
  behaviour and has a model refuse the request (R172, R225, U6). Safe. Log entry 8. -/
  | encodeTemperatureOutsideContract
  /-- Raised by `ADJUST` when `acs_mode` is 6 or 7, outside the caller contract (R180, R225, U7). Safe. Log
  entry 8. -/
  | adjustModeNamesNoMode
  deriving DecidableEq, Repr

/-! ### The state -/

/-- The sixteen bytes of the frame register, byte 0 first (R20). -/
abbrev Frame := Vector Byte 16

/-- The state of the machine. The block itself holds `fr` and nothing else (R11, R20, R29); the other fields
are its ports and its host's side of them. -/
structure State where
  /-- The frame register `FR` (R20). -/
  fr : Frame
  /-- The `acs` inputs of the current operation (R50, R51). -/
  acs : Acs
  /-- The `rx` inputs of the current operation (R50, R53). -/
  rx : Rx
  /-- What the host does next, in order (R24, R264). The model's own field: log entry 1. -/
  pending : List HostAction
  /-- The responses given so far, oldest first (R264). The model's own field, read by no operation: log entry 3. -/
  responses : List Response
  deriving DecidableEq, Repr

/-- The frame of sixteen zero bytes (R33, R161). -/
def Frame.zero : Frame := Vector.replicate 16 0

/-- The inputs of the `acs` port before any request: each at its least value inside the contract of R172.
DESIGN CHOICE, no value of the spec's: log entry 4. -/
def Acs.idle : Acs := { mode := 0, temp := 16, fanSet := false, fan := 0, swing := 0, light := false }

/-- The inputs of the `rx` port before any request: no word received. DESIGN CHOICE, no value of the spec's:
log entry 4. -/
def Rx.idle : Rx := { n := 0, w0 := 0, w1 := 0 }

/-- The machine right after reset: every byte of `FR` is 0x00 (R33, R34); nothing is requested and nothing has
been answered. -/
def State.reset : State :=
  { fr := Frame.zero, acs := Acs.idle, rx := Rx.idle, pending := [], responses := [] }

end Sys2Proof.Machine
end

