-- ==== Sys2Proof/Machine/Operands.lean ====
section
/-! DEFINITION. The operand forms of the command word (R92), the location of each named field (R120), and the
codes of the abstract and device values (R74, R76, R78, R84 to R87, R220) with the mappings between them. -/

namespace Sys2Proof.Machine

/-! ### The index operands (R92) -/

/-- A byte address: 0 to 15 (R92, R111). -/
def byteAddress (a : Byte) : Option (Fin 16) := if h : a.toNat < 16 then some ⟨a.toNat, h⟩ else none

/-- A bit address: 0 to 127 (R92, R115). -/
def bitAddress (a : Byte) : Option (Fin 128) := if h : a.toNat < 128 then some ⟨a.toNat, h⟩ else none

/-- A half-frame index: 0 or 1 (R92, R142). -/
def halfIndex (a : Byte) : Option (Fin 2) := if h : a.toNat < 2 then some ⟨a.toNat, h⟩ else none

/-- A field identifier: 0 to 14, in the order of R43. -/
def fieldId (a : Byte) : Option Field :=
  match a.toNat with
  | 0 => some .mode
  | 1 => some .power
  | 2 => some .basicFan
  | 3 => some .swingAuto
  | 4 => some .sleep
  | 5 => some .temp
  | 6 => some .turbo
  | 7 => some .light
  | 8 => some .ionFilter
  | 9 => some .xFan
  | 10 => some .mark1
  | 11 => some .swingV
  | 12 => some .sum1
  | 13 => some .mark2
  | 14 => some .sum2
  | _ => none

/-- The byte that holds a field: column `b` of R120. -/
def Field.byte : Field → Fin 16
  | .mode | .power | .basicFan | .swingAuto | .sleep => 0
  | .temp => 1
  | .turbo | .light | .ionFilter | .xFan => 2
  | .mark1 => 3
  | .swingV => 4
  | .sum1 => 7
  | .mark2 => 11
  | .sum2 => 15

/-- The lowest bit of a field inside its byte: column `lo` of R120. -/
def Field.lo : Field → Nat
  | .mode => 0
  | .power => 3
  | .basicFan => 4
  | .swingAuto => 6
  | .sleep => 7
  | .temp => 0
  | .turbo => 4
  | .light => 5
  | .ionFilter => 6
  | .xFan => 7
  | .mark1 => 4
  | .swingV => 0
  | .sum1 => 4
  | .mark2 => 4
  | .sum2 => 4

/-- The width of a field: column `W` of R120, as R73 has it. DESIGN CHOICE: these widths sum to 36 and leave the 92
bits that R82 lists, where R122 (f) counts 35 and 93; the tables are followed (log entry 19). -/
def Field.width : Field → Nat
  | .mode => 3
  | .power => 1
  | .basicFan => 2
  | .swingAuto => 1
  | .sleep => 1
  | .temp => 4
  | .turbo => 1
  | .light => 1
  | .ionFilter => 1
  | .xFan => 1
  | .mark1 => 4
  | .swingV => 4
  | .sum1 => 4
  | .mark2 => 4
  | .sum2 => 4

/-- `m = (1 << W) - 1` of R121, as a byte. -/
def Field.mask (f : Field) : Byte := (1#8 <<< f.width) - 1#8

/-- Byte `8h + j` of the frame: byte `j` of half-frame `h` (R44). -/
def halfByte (h : Fin 2) (j : Fin 8) : Fin 16 := ⟨8 * h.val + j.val, by omega⟩

/-- The byte `n div 8` of a bit address (R42). -/
def bitByte (n : Fin 128) : Fin 16 := ⟨n.val / 8, by omega⟩

/-- The position `n mod 8` of a bit address inside its byte (R42). -/
def bitPosition (n : Fin 128) : Nat := n.val % 8

/-! ### The codes of the abstract values -/

/-- The port code of an abstract mode (R84). -/
def AbsMode.code : AbsMode → BitVec 3
  | .off => 0
  | .cool => 1
  | .dry => 2
  | .fanOnly => 3
  | .heat => 4
  | .heatCool => 5

/-- The abstract mode of a port code; the codes 6 and 7 name no mode (R84). -/
def AbsMode.ofCode (c : BitVec 3) : Option AbsMode :=
  match c.toFin with
  | 0 => some .off
  | 1 => some .cool
  | 2 => some .dry
  | 3 => some .fanOnly
  | 4 => some .heat
  | 5 => some .heatCool
  | 6 => none
  | 7 => none

/-- The port code of an abstract fan mode (R86). -/
def AbsFan.code : AbsFan → BitVec 2
  | .auto => 0
  | .low => 1
  | .medium => 2
  | .high => 3

/-- The abstract fan mode of a port code; all four codes are defined (R86). -/
def AbsFan.ofCode (c : BitVec 2) : AbsFan :=
  match c.toFin with
  | 0 => .auto
  | 1 => .low
  | 2 => .medium
  | 3 => .high

/-- The port code of a swing mode (R87). -/
def AbsSwing.code : AbsSwing → BitVec 1
  | .off => 0
  | .vertical => 1

/-- The swing mode of a port code (R87). -/
def AbsSwing.ofCode (c : BitVec 1) : AbsSwing :=
  match c.toFin with
  | 0 => .off
  | 1 => .vertical

/-- `fan_mode` as the port carries it: unset when `acs_fan_set` is 0, and then `acs_fan` is not read (R86). -/
def Acs.fanMode (a : Acs) : Option AbsFan := if a.fanSet then some (AbsFan.ofCode a.fan) else none

/-! ### The codes of the device values, as field values -/

/-- The field value of a device mode (R74). -/
def DevMode.code : DevMode → Byte
  | .auto => 0
  | .cool => 1
  | .dry => 2
  | .fan => 3
  | .heat => 4

/-- The device mode of a field value; 5, 6 and 7 are not defined (R74). -/
def DevMode.ofCode (v : Byte) : Option DevMode :=
  match v.toNat with
  | 0 => some .auto
  | 1 => some .cool
  | 2 => some .dry
  | 3 => some .fan
  | 4 => some .heat
  | _ => none

/-- The field value of a device fan speed (R76). -/
def DevFan.code : DevFan → Byte
  | .auto => 0
  | .min => 1
  | .medium => 2
  | .max => 3

/-- The device fan speed of a field value. The last arm is the source's "any other value", which a 2-bit
field never takes (R200, C10). -/
def DevFan.ofCode (v : Byte) : DevFan :=
  match v.toNat with
  | 0 => .auto
  | 1 => .min
  | 2 => .medium
  | 3 => .max
  | _ => .auto

/-- The field value of a device swing position (R78). -/
def DevSwing.code : DevSwing → Byte
  | .off => 0
  | .auto => 1

/-! ### The mappings between abstract and device values -/

/-- `dev_mode` (R163). -/
def devMode : AbsMode → DevMode
  | .cool => .cool
  | .dry => .dry
  | .fanOnly => .fan
  | .heat => .heat
  | .heatCool => .auto
  | .off => .auto

/-- `abs_mode` (R197). -/
def absMode : DevMode → AbsMode
  | .auto => .heatCool
  | .cool => .cool
  | .dry => .dry
  | .fan => .fanOnly
  | .heat => .heat

/-- `dev_fan` (R165). -/
def devFan : AbsFan → DevFan
  | .auto => .auto
  | .low => .min
  | .medium => .medium
  | .high => .max

/-- `abs_fan` (R200). -/
def absFan : DevFan → AbsFan
  | .auto => .auto
  | .min => .low
  | .medium => .medium
  | .max => .high

/-- The device swing position of a swing mode (R167). -/
def devSwing : AbsSwing → DevSwing
  | .off => .off
  | .vertical => .auto

/-- The code of a status (R220). -/
def Status.code : Status → BitVec 2
  | .ok => 0
  | .unhandledShort => 1
  | .unhandledCsum => 2
  | .badOperand => 3

end Sys2Proof.Machine
end

