-- ==== Sys2Proof/Machine/Ops.lean ====
section
/-! DEFINITION. The named operations the meanings share: the four views of the frame register (byte, bit,
field, word), and the two ways an operation ends, a response with status OK and a failure status (R230). -/

namespace Sys2Proof.Machine

/-! ### The views of the frame register (R21, R41 to R47) -/

/-- `FR[k]` (R8, R40). -/
def Frame.byte (fr : Frame) (k : Fin 16) : Byte := fr.get k

/-- `FR[k] <- v` (R8, R40). -/
def Frame.setByte (fr : Frame) (k : Fin 16) (v : Byte) : Frame := fr.set k.val v k.isLt

/-- Bit address `n` (R42). -/
def Frame.bit (fr : Frame) (n : Fin 128) : Bool := (fr.byte (bitByte n)).getLsbD (bitPosition n)

/-- The write of bit address `n` (R116). -/
def Frame.setBit (fr : Frame) (n : Fin 128) (v : Bool) : Frame :=
  fr.setByte (bitByte n)
    ((fr.byte (bitByte n) &&& ~~~(1#8 <<< bitPosition n))
      ||| ((BitVec.ofBool v).setWidth 8 <<< bitPosition n))

/-- `fld_read` of R121: the bits of the field, zero-extended to 8 bits. -/
def Frame.readField (fr : Frame) (f : Field) : Byte := ((fr.byte f.byte).extractLsb' f.lo f.width).setWidth 8

/-- `fld_write` of R121: the low bits of `v` go into the field, the other bits of its byte are kept. -/
def Frame.writeField (fr : Frame) (f : Field) (v : Byte) : Frame :=
  fr.setByte f.byte ((fr.byte f.byte &&& ~~~(f.mask <<< f.lo)) ||| ((v &&& f.mask) <<< f.lo))

/-- The copy of bytes 0 to 2 into bytes 8 to 10 (R117, R168). -/
def Frame.mirror (fr : Frame) : Frame :=
  ((fr.setByte 8 (fr.byte 0)).setByte 9 (fr.byte 1)).setByte 10 (fr.byte 2)

/-- Word `h` of `pack` (R46): byte `j` of half-frame `h` in bits `8j+7` to `8j`. -/
def Frame.word (fr : Frame) (h : Fin 2) : TransportWord :=
  (fr.byte (halfByte h 7) ++ fr.byte (halfByte h 6) ++ fr.byte (halfByte h 5) ++ fr.byte (halfByte h 4)
    ++ fr.byte (halfByte h 3) ++ fr.byte (halfByte h 2) ++ fr.byte (halfByte h 1) ++ fr.byte (halfByte h 0)).cast rfl

/-- Bits `8j+7` to `8j` of a transport word (R45). -/
def wordByte (w : TransportWord) (j : Fin 8) : Byte := w.extractLsb' (8 * j.val) 8

/-- `unpack(w0, w1)` (R47). -/
def unpack (w0 w1 : TransportWord) : Frame :=
  #v[wordByte w0 0, wordByte w0 1, wordByte w0 2, wordByte w0 3,
     wordByte w0 4, wordByte w0 5, wordByte w0 6, wordByte w0 7,
     wordByte w1 0, wordByte w1 1, wordByte w1 2, wordByte w1 3,
     wordByte w1 4, wordByte w1 5, wordByte w1 6, wordByte w1 7]

/-- Word 0 of a frame given by its bits: bit address `n` is bit `n mod 64` of word `n div 64` (R42, R45). -/
def bitsWord0 (f : FrameBits) : TransportWord := f.extractLsb' 0 64

/-- Word 1 of a frame given by its bits (R42, R45). -/
def bitsWord1 (f : FrameBits) : TransportWord := f.extractLsb' 64 64

/-- The frame with the given bits at its bit addresses (R42, R47). -/
def Frame.ofBits (f : FrameBits) : Frame := unpack (bitsWord0 f) (bitsWord1 f)

/-! ### How an operation ends (R50, R220) -/

/-- A response with status OK and read data `q`, driving no bundle. -/
def Response.ok (q : Byte) : Response := { status := .ok, q := q, tx := none, upd := none, adj := none }

/-- The `upd` bundle of a `DECODE` that fails: the defaults of R190, nothing to merge (R213). -/
def Upd.nothing : Upd := { valid := false, modeWe := false, mode := none, temp := none, fan := none }

/-- The failures an operation can raise (R220). -/
inductive Failure where
  | unhandledShort | unhandledCsum | badOperand
  deriving DecidableEq, Repr

/-- The response a failure gives: its status, `q` = 0 (R50), and an `upd` bundle with `upd_valid` = 0 when
`DECODE` raises it (R190, R221, R222), no bundle for `BAD_OPERAND` (R223). -/
def Failure.response : Failure → Response
  | .unhandledShort => { status := .unhandledShort, q := 0, tx := none, upd := some Upd.nothing, adj := none }
  | .unhandledCsum => { status := .unhandledCsum, q := 0, tx := none, upd := some Upd.nothing, adj := none }
  | .badOperand => { status := .badOperand, q := 0, tx := none, upd := none, adj := none }

/-- The frame register loaded. -/
def State.setFr (s : State) (fr : Frame) : State := { s with fr := fr }

/-- The response given. -/
def State.respond (s : State) (r : Response) : State := { s with responses := s.responses ++ [r] }

/-- An operation that ends with its response: the frame register holds `fr`, the response is given. -/
def complete (fr : Frame) (r : Response) (s : State) : Host.Outcome State Fault Refusal :=
  .next ((s.setFr fr).respond r)

/-- Taking an exception: the `raise` of R8. The operation ends at once with the failure's status; nothing else
is saved or changed, there is nowhere to go and nothing to return from (R230, R231). What the operation had
written before it raised stands in the state it raises in. -/
def raise (e : Failure) (s : State) : Host.Outcome State Fault Refusal := complete s.fr e.response s

/-- The reset event: every byte of `FR` becomes 0x00 and nothing else changes; it is no operation and has no
response (R250; log entry 13). -/
def State.applyReset (s : State) : State := s.setFr Frame.zero

end Sys2Proof.Machine
end

