-- ==== Sys2Proof/Machine/Flags.lean ====
section
/-! DEFINITION. The nibble checksum and its match bits. The block keeps no flag (R25); the match bits of R145
are the results nearest to one. -/

namespace Sys2Proof.Machine

/-- `nsum(b)`: the sum of the two nibbles of a byte (R8, R140). -/
def nsum (b : Byte) : Byte := (b.extractLsb' 0 4).setWidth 8 + (b.extractLsb' 4 4).setWidth 8

/-- The bytes of a half-frame its checksum covers: the first seven (`CSUM_SPAN` of R6, R140). -/
def coveredBytes : List (Fin 8) := [0, 1, 2, 3, 4, 5, 6]

/-- The 8-bit accumulator over the covered bytes, 8h to 8h+6, from 0 (R141, R142). -/
def Frame.sumNibbles (fr : Frame) (h : Fin 2) : Byte :=
  coveredBytes.foldl (fun acc i => acc + nsum (fr.byte (halfByte h i))) 0

/-- `csum(h)`: the low four bits of the accumulator (R140, R141). -/
def Frame.csum (fr : Frame) (h : Fin 2) : BitVec 4 := (fr.sumNibbles h).extractLsb' 0 4

/-- The field that stores the checksum of a half-frame (R44, R81). -/
def sumField (h : Fin 2) : Field := if h = 0 then .sum1 else .sum2

/-- `sum1_ok` for half-frame 0 and `sum2_ok` for half-frame 1: whether the stored nibble equals the computed
one (R145). -/
def Frame.sumOk (fr : Frame) (h : Fin 2) : Bool := fr.readField (sumField h) == (fr.csum h).setWidth 8

/-- A frame is checksum-valid when both nibbles match (R145). -/
def Frame.checksumValid (fr : Frame) : Bool := fr.sumOk 0 && fr.sumOk 1

/-- Both checksums computed from the frame before any write, then stored by two field writes (R143, R170). -/
def Frame.applyChecksums (fr : Frame) : Frame :=
  (fr.writeField .sum1 ((fr.csum 0).setWidth 8)).writeField .sum2 ((fr.csum 1).setWidth 8)

end Sys2Proof.Machine
end

