-- ==== Sys2Proof/Machine/Checksum.lean ====
section
/-! DEFINITION. The meanings of the three checksum operations (41_checksum.md, R142 to R144). -/

namespace Sys2Proof.Machine

/-- `CSUM h` (R142): `q` is the checksum of half-frame `h`, zero-extended; `BAD_OPERAND` outside 0 to 1. -/
def execCsum (a : Byte) (s : State) : Host.Outcome State Fault Refusal :=
  match halfIndex a with
  | some h => complete s.fr (Response.ok ((s.fr.csum h).setWidth 8)) s
  | none => raise .badOperand s

/-- `CSAPPLY` (R143): both checksums are computed and stored. -/
def execCsapply (s : State) : Host.Outcome State Fault Refusal :=
  complete s.fr.applyChecksums (Response.ok 0) s

/-- `CSCHK` (R144): `q` is `{0b000000, sum2_ok, sum1_ok}`; a mismatch is its answer, not a failure. -/
def execCschk (s : State) : Host.Outcome State Fault Refusal :=
  complete s.fr (Response.ok (0#6 ++ BitVec.ofBool (s.fr.sumOk 1) ++ BitVec.ofBool (s.fr.sumOk 0))) s

end Sys2Proof.Machine
end

