-- ==== Sys2Proof/WellFormed.lean ====
section
/-! DEFINITION. Which instructions are well-formed: those whose operands the encoding admits. Only the
encoded-frame pattern R83 restricts an operand. -/

namespace Sys2Proof

/-- The restriction of R83 on the letter `V`: all four bits are 0 when `SWINGV_WIRED` = 0, and the top three
are 0 when it is 1. -/
def swingVAllowed (wired : Bool) (v : BitVec 4) : Bool := v == 0 || (wired && v == 1)

/-- Well-formedness for either value of `SWINGV_WIRED`. Every operand of a command word and every frame is
admitted (R91, R94, R97); an operand out of range is no ill-formed word, since R223 gives it an outcome. -/
def Instr.wellFormedFor (wired : Bool) : Instr → Bool
  | .cfEncoded _ _ _ _ _ v _ _ => swingVAllowed wired v
  | .fclr _ _ | .frdb _ _ | .fwrb _ _ | .frdf _ _ | .fwrf _ _ | .frdbit _ _ | .fwrbit _ _ | .fmirror _ _
  | .fpack _ _ | .funpack _ _ | .csum _ _ | .csapply _ _ | .cschk _ _ | .encode _ _ | .decode _ _
  | .adjust _ _ | .acOff _ _ | .acAuto _ | .acCool _ | .acDry _ | .acFan _ | .acHeat _ | .acRsv5 _
  | .acRsv6 _ | .acRsv7 _ => true

/-- Well-formedness on this hardware. -/
def WellFormed (i : Instr) : Bool := i.wellFormedFor Config.swingVWired

end Sys2Proof
end

