-- ==== Sys2Proof/Decode.lean ====
section
/-! DEFINITION. The decoder, from what is presented to the block to an instruction, and after it the encoder,
written from the same tables of the spec (R83, R90, R91, R93). -/

namespace Sys2Proof

/-- `cw[19:16]`, the operation select (R90). -/
def cwOp (w : CommandWord) : BitVec 4 := w.extractLsb' 16 4

/-- `cw[15:8]`, the address operand (R90). -/
def cwA (w : CommandWord) : Byte := w.extractLsb' 8 8

/-- `cw[7:0]`, the data operand (R90). -/
def cwD (w : CommandWord) : Byte := w.extractLsb' 0 8

/-- The operation of a command word, by the table R91. All sixteen values of `op` are assigned; the last arm
is the one value left, 0xF. -/
def decodeCommand (w : CommandWord) : Instr :=
  match cwOp w with
  | 0x0#4 => .fclr (cwA w) (cwD w)
  | 0x1#4 => .frdb (cwA w) (cwD w)
  | 0x2#4 => .fwrb (cwA w) (cwD w)
  | 0x3#4 => .frdf (cwA w) (cwD w)
  | 0x4#4 => .fwrf (cwA w) (cwD w)
  | 0x5#4 => .frdbit (cwA w) (cwD w)
  | 0x6#4 => .fwrbit (cwA w) (cwD w)
  | 0x7#4 => .fmirror (cwA w) (cwD w)
  | 0x8#4 => .fpack (cwA w) (cwD w)
  | 0x9#4 => .funpack (cwA w) (cwD w)
  | 0xA#4 => .csum (cwA w) (cwD w)
  | 0xB#4 => .csapply (cwA w) (cwD w)
  | 0xC#4 => .cschk (cwA w) (cwD w)
  | 0xD#4 => .encode (cwA w) (cwD w)
  | 0xE#4 => .decode (cwA w) (cwD w)
  | _ => .adjust (cwA w) (cwD w)

/-- Frame bits 2..0, the `Mode` field of half-frame 0 (R73). -/
def frameMode (f : FrameBits) : BitVec 3 := f.extractLsb' 0 3

/-- Frame bit 3, the `Power` field of half-frame 0 (R73). -/
def framePower (f : FrameBits) : BitVec 1 := f.extractLsb' 3 1

/-- Frame bits 127..4: everything the class mask of R93 leaves open, but for `Mode` where `Power` is 0. -/
def frameRest (f : FrameBits) : BitVec 124 := f.extractLsb' 4 124

/-- The class of a received frame, by the nine rows of R93: `Power` first, then `Mode`, and no other bit. -/
def decodeReceived (f : FrameBits) : Instr :=
  match (framePower f).toFin with
  | 0 => .acOff (frameMode f) (frameRest f)
  | 1 =>
    match (frameMode f).toFin with
    | 0 => .acAuto (frameRest f)
    | 1 => .acCool (frameRest f)
    | 2 => .acDry (frameRest f)
    | 3 => .acFan (frameRest f)
    | 4 => .acHeat (frameRest f)
    | 5 => .acRsv5 (frameRest f)
    | 6 => .acRsv6 (frameRest f)
    | 7 => .acRsv7 (frameRest f)

/-- The frame a class instruction stands for: bits 127..4, `Power` in bit 3, `Mode` in bits 2..0 (R73, R93). -/
def classBits (power : BitVec 1) (mode : BitVec 3) (rest : BitVec 124) : FrameBits :=
  (rest ++ power ++ mode).cast rfl

/-- Bytes 2, 1, 0 of the pattern R83: `00L00000 0000TTTT 00FFPMMM`. -/
def encodedBlock (mode : BitVec 3) (power : BitVec 1) (fan : BitVec 2) (temp : BitVec 4) (light : BitVec 1) :
    BitVec 24 :=
  ((0#2 ++ light ++ 0#5) ++ (0#4 ++ temp) ++ (0#2 ++ fan ++ power ++ mode)).cast rfl

/-- The pattern R83, from byte 15 down to byte 0. -/
def encodedBits (mode : BitVec 3) (power : BitVec 1) (fan : BitVec 2) (temp : BitVec 4) (light : BitVec 1)
    (swingV : BitVec 4) (sum1 : BitVec 4) (sum2 : BitVec 4) : FrameBits :=
  ((sum2 ++ 0#4) ++ 0#24 ++ 0x70#8 ++ encodedBlock mode power fan temp light
    ++ (sum1 ++ 0#4) ++ 0#16 ++ (0#4 ++ swingV) ++ 0x50#8 ++ encodedBlock mode power fan temp light).cast rfl

/-- The letters of the pattern R83 read off a frame, each at its lowest bit addresses (R73). -/
def encodedLetters (f : FrameBits) : Instr :=
  .cfEncoded (frameMode f) (framePower f) (f.extractLsb' 4 2) (f.extractLsb' 8 4) (f.extractLsb' 21 1)
    (f.extractLsb' 32 4) (f.extractLsb' 60 4) (f.extractLsb' 124 4)

/-- The bits that present an instruction to the block: the encoder. -/
def encode : Instr → Presented
  | .fclr a d => .command ((0x0#4 ++ a ++ d).cast rfl)
  | .frdb a d => .command ((0x1#4 ++ a ++ d).cast rfl)
  | .fwrb a d => .command ((0x2#4 ++ a ++ d).cast rfl)
  | .frdf a d => .command ((0x3#4 ++ a ++ d).cast rfl)
  | .fwrf a d => .command ((0x4#4 ++ a ++ d).cast rfl)
  | .frdbit a d => .command ((0x5#4 ++ a ++ d).cast rfl)
  | .fwrbit a d => .command ((0x6#4 ++ a ++ d).cast rfl)
  | .fmirror a d => .command ((0x7#4 ++ a ++ d).cast rfl)
  | .fpack a d => .command ((0x8#4 ++ a ++ d).cast rfl)
  | .funpack a d => .command ((0x9#4 ++ a ++ d).cast rfl)
  | .csum a d => .command ((0xA#4 ++ a ++ d).cast rfl)
  | .csapply a d => .command ((0xB#4 ++ a ++ d).cast rfl)
  | .cschk a d => .command ((0xC#4 ++ a ++ d).cast rfl)
  | .encode a d => .command ((0xD#4 ++ a ++ d).cast rfl)
  | .decode a d => .command ((0xE#4 ++ a ++ d).cast rfl)
  | .adjust a d => .command ((0xF#4 ++ a ++ d).cast rfl)
  | .acOff m r => .received (classBits 0 m r)
  | .acAuto r => .received (classBits 1 0 r)
  | .acCool r => .received (classBits 1 1 r)
  | .acDry r => .received (classBits 1 2 r)
  | .acFan r => .received (classBits 1 3 r)
  | .acHeat r => .received (classBits 1 4 r)
  | .acRsv5 r => .received (classBits 1 5 r)
  | .acRsv6 r => .received (classBits 1 6 r)
  | .acRsv7 r => .received (classBits 1 7 r)
  | .cfEncoded m p f t l v s1 s2 => .encoded (encodedBits m p f t l v s1 s2)

/-- A frame handed back as one `ENCODE` built: `CF.ENCODED` when it has the pattern R83 with an admitted
`SwingV`; any other frame is a received frame like every other, and has its class (log entry 7). -/
def decodeEncoded (f : FrameBits) : Instr :=
  if encode (encodedLetters f) = .encoded f ∧ WellFormed (encodedLetters f) = true then encodedLetters f
  else decodeReceived f

/-- The decoder. It refuses nothing: no value of `op` is illegal (R94), every frame has a class (R93), and
an operand out of range has an outcome of its own (R223). -/
def decode : Presented → Instr
  | .command w => decodeCommand w
  | .received f => decodeReceived f
  | .encoded f => decodeEncoded f

/-- Why bits of spec/opcode_table.json's numbering present nothing to the block. -/
inductive TableWordError where
  /-- The value has a bit at or above `nbits`. -/
  | widerThanItsRow
  /-- A bit above bit 19 of a command word is set: a command word is 20 bits (R90, R99). -/
  | commandWordOverTwentyBits
  /-- A bit above bit 127 of a frame is set: a frame is 128 bits (R70, R99). -/
  | frameOver128Bits
  deriving DecidableEq, Repr

/-- What a value `w` of `nbits` bits in the opcode table's numbering is presented as: up to 16 bits, the low
bits of a received frame (the class rows R93 give four); up to 32 bits, a command word (R90 gives twenty);
more, a whole frame of the pattern R83. DESIGN CHOICE: log entry 10. -/
def presentedTableWord (nbits w : Nat) : Except TableWordError Presented :=
  if 2 ^ nbits ≤ w then .error .widerThanItsRow
  else if nbits ≤ 16 then .ok (.received (BitVec.ofNat 128 w))
  else if nbits ≤ 32 then
    if w < 2 ^ 20 then .ok (.command (BitVec.ofNat 20 w)) else .error .commandWordOverTwentyBits
  else if w < 2 ^ 128 then .ok (.encoded (BitVec.ofNat 128 w)) else .error .frameOver128Bits

/-- The instruction the decoder reads from a value in the opcode table's numbering. -/
def decodeTableWord (nbits w : Nat) : Option Instr :=
  match presentedTableWord nbits w with
  | .ok p => some (decode p)
  | .error _ => none

end Sys2Proof
end

