-- ==== Sys2Proof/Machine/Decoder.lean ====
section
/-! DEFINITION. The meanings of `DECODE`, of the nine frame classes and of the encoded-frame pattern
(43_decoder.md, R190 to R211; R83). -/

namespace Sys2Proof.Machine

/-- The mode result of steps 3 and 4: OFF when `Power` is 0 whatever `Mode` is (R196), the mapped mode when
`Mode` is defined (R197), no mode when it is 5, 6 or 7 (R198). -/
def decodedMode (fr : Frame) : Option AbsMode :=
  if fr.readField .power = 0 then some .off
  else
    match DevMode.ofCode (fr.readField .mode) with
    | some m => some (absMode m)
    | none => none

/-- The temperature result of step 5 (R199). -/
def decodedTemp (fr : Frame) : Byte := fr.readField .temp + Config.tempOffset

/-- The fan result of step 6 (R200). -/
def decodedFan (fr : Frame) : AbsFan := absFan (DevFan.ofCode (fr.readField .basicFan))

/-- The update of a successful decode whose mode result is `mode` (R201): no mode is written when there is
none (R198). -/
def updateOf (mode : Option AbsMode) (fr : Frame) : Upd :=
  { valid := true
    modeWe := mode.isSome
    mode := mode.map AbsMode.code
    temp := some (decodedTemp fr)
    fan := some (decodedFan fr).code }

/-- Steps 2 to 7 on a received frame: it is loaded (R192); either checksum mismatched ends the operation with
the frame loaded (R193); else the update with the given mode result is delivered (R201). -/
def receive (fr : Frame) (mode : Option AbsMode) (s : State) : Host.Outcome State Fault Refusal :=
  if fr.checksumValid then
    complete fr { Response.ok 0 with upd := some (updateOf mode fr) } s
  else raise .unhandledCsum (s.setFr fr)

/-- `DECODE` (R190): fewer than two words end it with nothing changed (R191); else the two words are received
and interpreted. -/
def execDecode (s : State) : Host.Outcome State Fault Refusal :=
  if s.rx.n < Config.minRxWords then raise .unhandledShort s
  else
    let fr := unpack s.rx.w0 s.rx.w1
    receive fr (decodedMode fr) s

/-- `AC.OFF` (R205): a received frame with `Power` = 0; the mode is OFF for every `Mode`. -/
def execAcOff (mode : BitVec 3) (rest : BitVec 124) (s : State) : Host.Outcome State Fault Refusal :=
  receive (Frame.ofBits (classBits 0 mode rest)) (some .off) s

/-- `AC.AUTO` (R206): the mode is HEAT_COOL. -/
def execAcAuto (rest : BitVec 124) (s : State) : Host.Outcome State Fault Refusal :=
  receive (Frame.ofBits (classBits 1 0 rest)) (some .heatCool) s

/-- `AC.COOL` (R207): the mode is COOL. -/
def execAcCool (rest : BitVec 124) (s : State) : Host.Outcome State Fault Refusal :=
  receive (Frame.ofBits (classBits 1 1 rest)) (some .cool) s

/-- `AC.DRY` (R208): the mode is DRY. -/
def execAcDry (rest : BitVec 124) (s : State) : Host.Outcome State Fault Refusal :=
  receive (Frame.ofBits (classBits 1 2 rest)) (some .dry) s

/-- `AC.FAN` (R209): the mode is FAN_ONLY. -/
def execAcFan (rest : BitVec 124) (s : State) : Host.Outcome State Fault Refusal :=
  receive (Frame.ofBits (classBits 1 3 rest)) (some .fanOnly) s

/-- `AC.HEAT` (R210): the mode is HEAT. -/
def execAcHeat (rest : BitVec 124) (s : State) : Host.Outcome State Fault Refusal :=
  receive (Frame.ofBits (classBits 1 4 rest)) (some .heat) s

/-- `AC.RSV5` (R211): no mode is written. -/
def execAcRsv5 (rest : BitVec 124) (s : State) : Host.Outcome State Fault Refusal :=
  receive (Frame.ofBits (classBits 1 5 rest)) none s

/-- `AC.RSV6` (R211): no mode is written. -/
def execAcRsv6 (rest : BitVec 124) (s : State) : Host.Outcome State Fault Refusal :=
  receive (Frame.ofBits (classBits 1 6 rest)) none s

/-- `AC.RSV7` (R211): no mode is written. -/
def execAcRsv7 (rest : BitVec 124) (s : State) : Host.Outcome State Fault Refusal :=
  receive (Frame.ofBits (classBits 1 7 rest)) none s

/-- `CF.ENCODED` (R83): a frame of the encoded pattern handed back to the block is received like any frame
and interpreted from its fields (R212; log entry 7). -/
def execCfEncoded (mode : BitVec 3) (power : BitVec 1) (fan : BitVec 2) (temp : BitVec 4) (light : BitVec 1)
    (swingV : BitVec 4) (sum1 : BitVec 4) (sum2 : BitVec 4) (s : State) : Host.Outcome State Fault Refusal :=
  let fr := Frame.ofBits (encodedBits mode power fan temp light swingV sum1 sum2)
  receive fr (decodedMode fr) s

end Sys2Proof.Machine
end

