-- ==== Sys2Proof/Machine/Encoder.lean ====
section
/-! DEFINITION. The meanings of `ENCODE` and `ADJUST` (42_encoder.md, R160 to R182). -/

namespace Sys2Proof.Machine

/-- The field value of step 4 (R165): AUTO when the fan is unset. -/
def fanFieldValue (fan : Option AbsFan) : Byte :=
  match fan with
  | some x => (devFan x).code
  | none => DevFan.auto.code

/-- The frame `ENCODE` builds, step by step as R160 has it, for either value of `SWINGV_WIRED`. -/
def encodeFrame (wired : Bool) (mode : AbsMode) (temp : Byte) (fan : Option AbsFan) (swing : AbsSwing)
    (light : Bool) : Frame :=
  let f0 := Frame.zero
  let f1 := f0.writeField .power (if mode = .off then 0 else 1)
  let f2 := f1.writeField .mode (devMode mode).code
  let f3 := f2.writeField .temp (temp - Config.tempOffset)
  let f4 := f3.writeField .basicFan (fanFieldValue fan)
  let f5 := f4.writeField .light ((BitVec.ofBool light).setWidth 8)
  let f6 := if wired then f5.writeField .swingV (devSwing swing).code else f5
  let f7 := f6.mirror
  let f8 := (f7.setByte 3 Config.mark1).setByte 11 Config.mark2
  f8.applyChecksums

/-- The temperature range of the caller contract (R172). -/
def temperatureInContract (t : Byte) : Bool := decide (Config.tempMin ≤ t ∧ t ≤ Config.tempMax)

/-- `ENCODE` (R160): the frame of the sampled climate state is left in `FR` and driven on `tx` with
`tx_valid` = 1. Outside the caller contract it is refused (R172; log entry 8). -/
def execEncode (s : State) : Host.Outcome State Fault Refusal :=
  match AbsMode.ofCode s.acs.mode with
  | none => .refused .encodeModeNamesNoMode
  | some mode =>
    if temperatureInContract s.acs.temp then
      let fr := encodeFrame Config.swingVWired mode s.acs.temp s.acs.fanMode (AbsSwing.ofCode s.acs.swing)
        s.acs.light
      complete fr { Response.ok 0 with tx := some { valid := true, w0 := fr.word 0, w1 := fr.word 1 } } s
    else .refused .encodeTemperatureOutsideContract

/-- `adj_swing` of R180: forced OFF when the mode is OFF. -/
def adjustSwing (mode : AbsMode) (swing : AbsSwing) : AbsSwing := if mode = .off then .off else swing

/-- `adj_temp` of R180: forced to the auto setpoint in the modes that ignore temperature. -/
def adjustTemp (mode : AbsMode) (temp : Byte) : Byte :=
  if mode = .heatCool ∨ mode = .fanOnly then Config.autoSetpoint else temp

/-- `ADJUST` (R180): the adjusted swing and temperature are driven; `FR` is neither read nor written. A mode
code that names no mode is refused (R180, U7; log entry 8). -/
def execAdjust (s : State) : Host.Outcome State Fault Refusal :=
  match AbsMode.ofCode s.acs.mode with
  | none => .refused .adjustModeNamesNoMode
  | some mode =>
    complete s.fr
      { Response.ok 0 with
        adj := some { swing := (adjustSwing mode (AbsSwing.ofCode s.acs.swing)).code
                      temp := adjustTemp mode s.acs.temp } } s

end Sys2Proof.Machine
end

