-- ==== Sys2Proof/Machine/FrameModel.lean ====
section
/-! DEFINITION. The meanings of the ten frame model operations (40_frame_model.md, R110 to R119). -/

namespace Sys2Proof.Machine

/-- `FCLR` (R110): every byte becomes 0x00. -/
def execFclr (s : State) : Host.Outcome State Fault Refusal := complete Frame.zero (Response.ok 0) s

/-- `FRDB k` (R111): `q` is byte `k`; `BAD_OPERAND` outside 0 to 15. -/
def execFrdb (a : Byte) (s : State) : Host.Outcome State Fault Refusal :=
  match byteAddress a with
  | some k => complete s.fr (Response.ok (s.fr.byte k)) s
  | none => raise .badOperand s

/-- `FWRB k, v` (R112): byte `k` becomes `v`; `BAD_OPERAND` outside 0 to 15. -/
def execFwrb (a d : Byte) (s : State) : Host.Outcome State Fault Refusal :=
  match byteAddress a with
  | some k => complete (s.fr.setByte k d) (Response.ok 0) s
  | none => raise .badOperand s

/-- `FRDF f` (R113): `q` is the field, zero-extended; `BAD_OPERAND` outside 0 to 14. -/
def execFrdf (a : Byte) (s : State) : Host.Outcome State Fault Refusal :=
  match fieldId a with
  | some f => complete s.fr (Response.ok (s.fr.readField f)) s
  | none => raise .badOperand s

/-- `FWRF f, v` (R114): the field becomes the low bits of `v`; `BAD_OPERAND` outside 0 to 14. -/
def execFwrf (a d : Byte) (s : State) : Host.Outcome State Fault Refusal :=
  match fieldId a with
  | some f => complete (s.fr.writeField f d) (Response.ok 0) s
  | none => raise .badOperand s

/-- `FRDBIT n` (R115): `q` is the bit, zero-extended; `BAD_OPERAND` outside 0 to 127. -/
def execFrdbit (a : Byte) (s : State) : Host.Outcome State Fault Refusal :=
  match bitAddress a with
  | some n => complete s.fr (Response.ok ((BitVec.ofBool (s.fr.bit n)).setWidth 8)) s
  | none => raise .badOperand s

/-- `FWRBIT n, v` (R116): the bit becomes `d[0]`; `BAD_OPERAND` outside 0 to 127. -/
def execFwrbit (a d : Byte) (s : State) : Host.Outcome State Fault Refusal :=
  match bitAddress a with
  | some n => complete (s.fr.setBit n (d.getLsbD 0)) (Response.ok 0) s
  | none => raise .badOperand s

/-- `FMIRROR` (R117): bytes 8 to 10 become bytes 0 to 2. -/
def execFmirror (s : State) : Host.Outcome State Fault Refusal := complete s.fr.mirror (Response.ok 0) s

/-- `FPACK` (R118): the frame is presented as two words, with `tx_valid` = 0. -/
def execFpack (s : State) : Host.Outcome State Fault Refusal :=
  complete s.fr
    { Response.ok 0 with tx := some { valid := false, w0 := s.fr.word 0, w1 := s.fr.word 1 } } s

/-- `FUNPACK` (R119): the frame becomes the two words of the `rx` bundle; `rx_n` is not read. -/
def execFunpack (s : State) : Host.Outcome State Fault Refusal :=
  complete (unpack s.rx.w0 s.rx.w1) (Response.ok 0) s

end Sys2Proof.Machine
end

