-- ==== Sys2Proof/Machine/Dispatch.lean ====
section
/-! DEFINITION. The meaning of every instruction, one arm per constructor. -/

namespace Sys2Proof.Machine

/-- The effect of an instruction, its operands sampled from the ports the state holds. -/
def exec (i : Instr) (s : State) : Host.Outcome State Fault Refusal :=
  match i with
  | .fclr _ _ => Sys2Proof.Machine.execFclr s
  | .frdb a _ => Sys2Proof.Machine.execFrdb a s
  | .fwrb a d => Sys2Proof.Machine.execFwrb a d s
  | .frdf a _ => Sys2Proof.Machine.execFrdf a s
  | .fwrf a d => Sys2Proof.Machine.execFwrf a d s
  | .frdbit a _ => Sys2Proof.Machine.execFrdbit a s
  | .fwrbit a d => Sys2Proof.Machine.execFwrbit a d s
  | .fmirror _ _ => Sys2Proof.Machine.execFmirror s
  | .fpack _ _ => Sys2Proof.Machine.execFpack s
  | .funpack _ _ => Sys2Proof.Machine.execFunpack s
  | .csum a _ => Sys2Proof.Machine.execCsum a s
  | .csapply _ _ => Sys2Proof.Machine.execCsapply s
  | .cschk _ _ => Sys2Proof.Machine.execCschk s
  | .encode _ _ => Sys2Proof.Machine.execEncode s
  | .decode _ _ => Sys2Proof.Machine.execDecode s
  | .adjust _ _ => Sys2Proof.Machine.execAdjust s
  | .acOff mode rest => Sys2Proof.Machine.execAcOff mode rest s
  | .acAuto rest => Sys2Proof.Machine.execAcAuto rest s
  | .acCool rest => Sys2Proof.Machine.execAcCool rest s
  | .acDry rest => Sys2Proof.Machine.execAcDry rest s
  | .acFan rest => Sys2Proof.Machine.execAcFan rest s
  | .acHeat rest => Sys2Proof.Machine.execAcHeat rest s
  | .acRsv5 rest => Sys2Proof.Machine.execAcRsv5 rest s
  | .acRsv6 rest => Sys2Proof.Machine.execAcRsv6 rest s
  | .acRsv7 rest => Sys2Proof.Machine.execAcRsv7 rest s
  | .cfEncoded m p f t l v s1 s2 => Sys2Proof.Machine.execCfEncoded m p f t l v s1 s2 s

end Sys2Proof.Machine
end

