-- ==== Sys2Proof/Machine/Fetch.lean ====
section
/-! DEFINITION. How the block takes what the host does next: the instruction an action presents, the inputs it
puts on the ports, and the action that presents a value of the opcode table. -/

namespace Sys2Proof.Machine

/-- What an action presents to be executed; the reset event presents nothing (R250). -/
def HostAction.presented : HostAction → Option Presented
  | .reset => none
  | .operation cw _ _ => some (.command cw)
  | .received f => some (.received f)
  | .encoded f => some (.encoded f)

/-- The instruction an action presents. -/
def HostAction.instr (a : HostAction) : Option Instr := a.presented.map decode

/-- The `rx` inputs of a two-word frame: the receiver delivered two words, word 0 first (R45, R53). -/
def Rx.ofBits (f : FrameBits) : Rx := { n := 2, w0 := bitsWord0 f, w1 := bitsWord1 f }

/-- The ports carry the inputs of an action, sampled once at its start (R50). A frame comes on the `rx` port
and leaves the `acs` inputs as they are. -/
def State.sample (s : State) : HostAction → State
  | .reset => s
  | .operation _ acs rx => { s with acs := acs, rx := rx }
  | .received f => { s with rx := Rx.ofBits f }
  | .encoded f => { s with rx := Rx.ofBits f }

/-- The action is taken off the host's list. -/
def State.withPending (s : State) (rest : List HostAction) : State := { s with pending := rest }

/-- The action that presents something, an operation with the inputs the ports carry already. -/
def actionOf (s : State) : Presented → HostAction
  | .command cw => .operation cw s.acs s.rx
  | .received f => .received f
  | .encoded f => .encoded f

/-- The action that presents a value of the opcode table, put first in the host's list; a value that presents
nothing changes nothing. -/
def fetchWord (s : State) (nbits w : Nat) : State :=
  match presentedTableWord nbits w with
  | .ok p => s.withPending (actionOf s p :: s.pending)
  | .error _ => s

end Sys2Proof.Machine
end

