-- ==== Sys2Proof/Machine/Step.lean ====
section
/-! DEFINITION. One step of the machine: the next thing the host does, whole. -/

namespace Sys2Proof.Machine

/-- One step (R10, R24, R262): the first action of the host's list is taken and its instruction executed to
its end on the inputs it puts on the ports. The reset event executes nothing (R250). With no action to come
the block is idle and stays as it is (R251; log entry 2). -/
def step (s : State) : Host.Outcome State Fault Refusal :=
  match s.pending with
  | [] => .next s
  | a :: rest =>
    match a.instr with
    | none => .next (s.withPending rest).applyReset
    | some i => exec i ((s.withPending rest).sample a)

/-- The state in which the next step runs the instruction of a value of the opcode table (log entry 11). -/
def State.withFetchWord (s : State) (nbits w : Nat) : State := fetchWord s nbits w

end Sys2Proof.Machine
end

