-- ==== Sys2Proof/Machine/Environment.lean ====
section
/-! DEFINITION. The host's side of the climate ports: the Abstract Climate State it owns (R30), how it is put
on the `acs` bundle, and what the host does with the `upd` and `adj` bundles (R181, R201). No step of the
block reads or writes it (log entry 16). -/

namespace Sys2Proof.Machine

/-- The Abstract Climate State (R30), its temperature in the whole degrees the port carries (R85). -/
structure ClimateState where
  mode : AbsMode
  temp : Byte
  fan : Option AbsFan
  swing : AbsSwing
  light : Bool
  deriving DecidableEq, Repr

/-- The `acs` bundle of a climate state (R51, R84 to R88). `unread` is what `acs_fan` shows while `fan_mode`
is unset: any value (R86). -/
def ClimateState.toAcs (c : ClimateState) (unread : BitVec 2) : Acs :=
  { mode := c.mode.code
    temp := c.temp
    fanSet := c.fan.isSome
    fan := match c.fan with
      | some x => x.code
      | none => unread
    swing := c.swing.code
    light := c.light }

/-- The merge of R201: nothing unless `upd_valid`; the mode only when `upd_mode_we`; the temperature; the fan,
which becomes a set value. Swing and light are never touched (R202). -/
def ClimateState.merge (c : ClimateState) (u : Upd) : ClimateState :=
  if u.valid then
    { c with
      mode := if u.modeWe then (u.mode.bind AbsMode.ofCode).getD c.mode else c.mode
      temp := u.temp.getD c.temp
      fan := match u.fan with
        | some x => some (AbsFan.ofCode x)
        | none => c.fan }
  else c

/-- What the host does with a response to `DECODE`: it merges the update only on OK (R17, R57, R213). -/
def ClimateState.afterDecode (c : ClimateState) (r : Response) : ClimateState :=
  match r.status, r.upd with
  | .ok, some u => c.merge u
  | _, _ => c

/-- What the host does with a response to `ADJUST`: it writes both values back (R181). -/
def ClimateState.afterAdjust (c : ClimateState) (r : Response) : ClimateState :=
  match r.adj with
  | some a => { c with swing := AbsSwing.ofCode a.swing, temp := a.temp }
  | none => c

end Sys2Proof.Machine
end

