-- ==== Sys2Proof/Safety.lean ====
section
/-! DEFINITION. What a safe run is, in the terms claims use: the host's contract, the invariants of an encoded
frame, what every response owes the host, and what an operation keeps. -/

namespace Sys2Proof.Machine

/-! ### The host's contract (R17, R172, R253) -/

/-- The `acs` inputs inside the contract of `ENCODE` (R172). -/
abbrev Acs.InEncodeContract (a : Acs) : Prop := a.mode.toNat ≤ 5 ∧ 16 ≤ a.temp.toNat ∧ a.temp.toNat ≤ 30

/-- The `acs` inputs inside the contract of `ADJUST` (R180). -/
abbrev Acs.InAdjustContract (a : Acs) : Prop := a.mode.toNat ≤ 5

/-- The inputs that keep the contract of an instruction; only `ENCODE` and `ADJUST` have one. -/
def ContractKept (i : Instr) (a : Acs) : Prop :=
  match i with
  | .encode _ _ => a.InEncodeContract
  | .adjust _ _ => a.InAdjustContract
  | .fclr _ _ | .frdb _ _ | .fwrb _ _ | .frdf _ _ | .fwrf _ _ | .frdbit _ _ | .fwrbit _ _ | .fmirror _ _
  | .fpack _ _ | .funpack _ _ | .csum _ _ | .csapply _ _ | .cschk _ _ | .decode _ _ | .acOff _ _
  | .acAuto _ | .acCool _ | .acDry _ | .acFan _ | .acHeat _ | .acRsv5 _ | .acRsv6 _ | .acRsv7 _
  | .cfEncoded _ _ _ _ _ _ _ _ => True

/-- An action of a host that keeps its contract. -/
def HostAction.Admissible : HostAction → Prop
  | .operation cw acs _ => ContractKept (decodeCommand cw) acs
  | .reset | .received _ | .encoded _ => True

/-- A host that keeps its contract in everything it is going to do. -/
def State.HostKeepsContract (s : State) : Prop := ∀ a ∈ s.pending, a.Admissible

/-! ### The checksum in the spec's words -/

/-- The sum of all nibbles of the seven covered bytes of a half-frame, as a natural number: `nsum` of R140
summed over bytes 8h to 8h+6, before the reduction modulo 16. -/
def Frame.nibbleTotal (fr : Frame) (h : Fin 2) : Nat :=
  (((fr.toList.drop (8 * h.val)).take 7).map fun b => b.toNat % 16 + b.toNat / 16).sum

/-- The byte after the covered range of a half-frame, whose high nibble stores the checksum (R44, R81). -/
def sumByte (h : Fin 2) : Fin 16 := ⟨8 * h.val + 7, by omega⟩

/-- The stored nibble of a half-frame equals the computed one (R145). -/
abbrev Frame.SumMatches (fr : Frame) (h : Fin 2) : Prop :=
  (fr.byte (sumByte h)).toNat / 16 = fr.nibbleTotal h % 16

/-- A checksum-valid frame (R145). -/
abbrev Frame.Valid (fr : Frame) : Prop := fr.SumMatches 0 ∧ fr.SumMatches 1

/-! ### An encoded frame (R175) -/

/-- The invariants (a) to (e) of R175, with R82 for the unnamed bits. -/
structure Frame.IsEncoded (wired : Bool) (fr : Frame) : Prop where
  /-- (a) the redundancy invariant -/
  mirrored : fr.byte 8 = fr.byte 0 ∧ fr.byte 9 = fr.byte 1 ∧ fr.byte 10 = fr.byte 2
  /-- (b) the fixed markers -/
  marked : fr.byte 3 = 0x50 ∧ fr.byte 11 = 0x70
  /-- (c) checksum correctness -/
  summed : fr.Valid
  /-- (d) the undriven named bits are 0 -/
  undriven : fr.readField .swingAuto = 0 ∧ fr.readField .sleep = 0 ∧ fr.readField .turbo = 0
    ∧ fr.readField .ionFilter = 0 ∧ fr.readField .xFan = 0
  /-- (d) the unnamed nibbles are 0 -/
  unnamed : (fr.byte 1).toNat < 16 ∧ (fr.byte 2).toNat % 16 = 0 ∧ (fr.byte 4).toNat < 16
    ∧ (fr.byte 7).toNat % 16 = 0 ∧ (fr.byte 15).toNat % 16 = 0
  /-- (d) the unnamed bytes are 0 -/
  unnamedBytes : fr.byte 5 = 0 ∧ fr.byte 6 = 0 ∧ fr.byte 12 = 0 ∧ fr.byte 13 = 0 ∧ fr.byte 14 = 0
  /-- (d) byte 4 is 0 when `SWINGV_WIRED` = 0 -/
  swing : wired = false → fr.byte 4 = 0
  /-- (e) `Mode` is 0 to 4 and `Temp` is 0 to 14 -/
  ranges : (fr.readField .mode).toNat ≤ 4 ∧ (fr.readField .temp).toNat ≤ 14

/-! ### What every response owes the host -/

/-- What a response promises: words offered for transmission are an encoded frame (R171, R258); a failure has
no read data and nothing to merge or to send (R213, R221 to R223); a valid update carries a temperature of 16
to 31, a fan value, and a mode that names one exactly when it is to be written (R84, R85, R198, R201). -/
structure Response.Sound (r : Response) : Prop where
  transmitted : ∀ t, r.tx = some t → t.valid = true → (unpack t.w0 t.w1).IsEncoded Config.swingVWired
  failed : r.status ≠ .ok → r.q = 0 ∧ r.tx = none ∧ r.adj = none ∧ ∀ u, r.upd = some u → u = Upd.nothing
  updated : ∀ u, r.upd = some u → u.valid = true →
    (∃ x, u.temp = some x ∧ 16 ≤ x.toNat ∧ x.toNat ≤ 31) ∧ u.fan.isSome = true
      ∧ (u.modeWe = true → ∃ c, u.mode = some c ∧ c.toNat ≤ 5) ∧ (u.modeWe = false → u.mode = none)

/-- Every response given so far is sound. -/
def State.ResponsesSound (s : State) : Prop := ∀ r ∈ s.responses, r.Sound

/-! ### What an operation keeps -/

/-- The host's side of the state is kept: the ports and what the host does next. -/
abbrev State.HostSideKept (s t : State) : Prop := t.acs = s.acs ∧ t.rx = s.rx ∧ t.pending = s.pending

/-- Exactly one response is given, and the host's side is kept. -/
abbrev State.Answered (s t : State) (r : Response) : Prop :=
  t.responses = s.responses ++ [r] ∧ s.HostSideKept t

/-- The last response given. -/
def State.lastResponse (s : State) : Option Response := s.responses.getLast?

/-- The operands out of range, for which R223 has `BAD_OPERAND`. -/
def OutOfRange : Instr → Prop
  | .frdb a _ | .fwrb a _ => 15 < a.toNat
  | .frdf a _ | .fwrf a _ => 14 < a.toNat
  | .frdbit a _ | .fwrbit a _ => 127 < a.toNat
  | .csum a _ => 1 < a.toNat
  | .fclr _ _ | .fmirror _ _ | .fpack _ _ | .funpack _ _ | .csapply _ _ | .cschk _ _ | .encode _ _
  | .decode _ _ | .adjust _ _ | .acOff _ _ | .acAuto _ | .acCool _ | .acDry _ | .acFan _ | .acHeat _
  | .acRsv5 _ | .acRsv6 _ | .acRsv7 _ | .cfEncoded _ _ _ _ _ _ _ _ => False

/-! ### Outcomes claims speak of -/

/-- The command word `(op << 16) | (a << 8) | d` (R90, R91). -/
def commandWord (op : Nat) (a d : Byte) : CommandWord := BitVec.ofNat 20 (op * 2 ^ 16 + a.toNat * 2 ^ 8 + d.toNat)

/-- `BAD_OPERAND` (R223): `FR` unchanged, `q` = 0, no bundle driven. -/
def AnswersBadOperand (i : Instr) (s : State) : Prop :=
  ∃ t, exec i s = .next t ∧ t.fr = s.fr
    ∧ s.Answered t { status := .badOperand, q := 0, tx := none, upd := none, adj := none }

/-- The response of a reception that failed: its status, no other bundle, and nothing to merge. Of the other `upd`
signals, which mean nothing then, it says nothing (R190, R221). -/
structure Response.FailsWith (r : Response) (e : Status) : Prop where
  status : r.status = e
  noOtherBundle : r.tx = none ∧ r.adj = none
  nothingToMerge : ∃ u, r.upd = some u ∧ u.valid = false ∧ u.modeWe = false

/-- A received frame is delivered: `FR` holds its bits, and the update carries the given mode (or none is to be
written), the temperature of frame bits 11..8 and the fan code of frame bits 5..4 (R73, R198 to R201). -/
def DeliversFrame (i : Instr) (f : FrameBits) (mode : Option (BitVec 3)) (s : State) : Prop :=
  ∃ t u, exec i s = .next t ∧ (∀ n : Fin 128, t.fr.bit n = f.getLsbD n.val)
    ∧ s.Answered t { status := .ok, q := 0, tx := none, upd := some u, adj := none }
    ∧ u.valid = true ∧ u.modeWe = mode.isSome ∧ (∀ m, mode = some m → u.mode = some m)
    ∧ u.temp = some ((f.extractLsb' 8 4).setWidth 8 + 16) ∧ u.fan = some (f.extractLsb' 4 2)

/-- A received frame is rejected for its checksums: `FR` holds its bits, nothing is to be merged (R193, R222). -/
def RejectsFrame (i : Instr) (f : FrameBits) (s : State) : Prop :=
  ∃ t r, exec i s = .next t ∧ (∀ n : Fin 128, t.fr.bit n = f.getLsbD n.val) ∧ s.Answered t r
    ∧ r.FailsWith .unhandledCsum

/-- Instructions executed one after the other, on inputs that stay as they are. -/
def runInstrs : List Instr → State → Host.Outcome State Fault Refusal
  | [], s => .next s
  | i :: is, s =>
    match exec i s with
    | .next t => runInstrs is t
    | .fault r => .fault r
    | .refused r => .refused r

/-- The operations that only inspect the frame register (R49, R57). -/
def Inspects : Instr → Prop
  | .frdb _ _ | .frdf _ _ | .frdbit _ _ | .fpack _ _ | .csum _ _ | .cschk _ _ => True
  | .fclr _ _ | .fwrb _ _ | .fwrf _ _ | .fwrbit _ _ | .fmirror _ _ | .funpack _ _ | .csapply _ _
  | .encode _ _ | .decode _ _ | .adjust _ _ | .acOff _ _ | .acAuto _ | .acCool _ | .acDry _
  | .acFan _ | .acHeat _ | .acRsv5 _ | .acRsv6 _ | .acRsv7 _ | .cfEncoded _ _ _ _ _ _ _ _ => False

/-- The instructions that receive a frame: `DECODE` and every presentation of a frame to it (R93, R190). -/
def Receives : Instr → Prop
  | .decode _ _ | .acOff _ _ | .acAuto _ | .acCool _ | .acDry _ | .acFan _ | .acHeat _ | .acRsv5 _
  | .acRsv6 _ | .acRsv7 _ | .cfEncoded _ _ _ _ _ _ _ _ => True
  | .fclr _ _ | .frdb _ _ | .fwrb _ _ | .frdf _ _ | .fwrf _ _ | .frdbit _ _ | .fwrbit _ _
  | .fmirror _ _ | .fpack _ _ | .funpack _ _ | .csum _ _ | .csapply _ _ | .cschk _ _ | .encode _ _
  | .adjust _ _ => False

/-- The bytes of `FR` an instruction may write in a state: the last column of R22. -/
def MayWrite (i : Instr) (s : State) (k : Fin 16) : Prop :=
  match i with
  | .fclr _ _ | .funpack _ _ | .encode _ _ => True
  | .fwrb a _ => k.val = a.toNat
  | .fwrf a _ => ∃ f, fieldId a = some f ∧ f.byte = k
  | .fwrbit a _ => k.val = a.toNat / 8
  | .fmirror _ _ => k = 8 ∨ k = 9 ∨ k = 10
  | .csapply _ _ => k = 7 ∨ k = 15
  | .decode _ _ => 2 ≤ s.rx.n.toNat
  | .acOff _ _ | .acAuto _ | .acCool _ | .acDry _ | .acFan _ | .acHeat _ | .acRsv5 _
  | .acRsv6 _ | .acRsv7 _ | .cfEncoded _ _ _ _ _ _ _ _ => True
  | .frdb _ _ | .frdf _ _ | .frdbit _ _ | .fpack _ _ | .csum _ _ | .cschk _ _ | .adjust _ _ => False

/-- The bytes of `FR` a response may depend on: the middle column of R22, for the operations whose response
carries something of the frame register. -/
def MayReport (i : Instr) (k : Fin 16) : Prop :=
  match i with
  | .frdb a _ => k.val = a.toNat
  | .frdf a _ => ∃ f, fieldId a = some f ∧ f.byte = k
  | .frdbit a _ => k.val = a.toNat / 8
  | .csum a _ => 8 * a.toNat ≤ k.val ∧ k.val ≤ 8 * a.toNat + 6
  | .fpack _ _ | .cschk _ _ => True
  | .fclr _ _ | .fwrb _ _ | .fwrf _ _ | .fwrbit _ _ | .fmirror _ _ | .funpack _ _ | .csapply _ _
  | .encode _ _ | .decode _ _ | .adjust _ _ | .acOff _ _ | .acAuto _ | .acCool _ | .acDry _
  | .acFan _ | .acHeat _ | .acRsv5 _ | .acRsv6 _ | .acRsv7 _ | .cfEncoded _ _ _ _ _ _ _ _ => False

end Sys2Proof.Machine
end

