-- ==== Sys2Proof/Certificates/Slice0/Obligations.lean ====
section
/-! DEFINITION. The statements for the provers. A state's next state is given whole: what the frame register
holds, the one response given, and `HostSideKept` for everything else. -/

open Sys2Proof Sys2Proof.Machine

/-! ### Reset and the step -/

/-- R33, R34: what reset leaves, and what the first reads then answer. The value is the spec's own decision
D12. -/
def Obligations.ResetClearsFrameRegister : Prop :=
  (∀ k, State.reset.fr.byte k = 0)
  ∧ (∀ (k : Fin 16) (d : Byte), ∃ t, exec (.frdb (BitVec.ofNat 8 k.val) d) State.reset = .next t
      ∧ State.reset.Answered t (Response.ok 0) ∧ t.fr = State.reset.fr)
  ∧ (∀ (h : Fin 2) (d : Byte), ∃ t, exec (.csum (BitVec.ofNat 8 h.val) d) State.reset = .next t
      ∧ State.reset.Answered t (Response.ok 0) ∧ t.fr = State.reset.fr)
  ∧ (∀ a d : Byte, ∃ t, exec (.cschk a d) State.reset = .next t
      ∧ State.reset.Answered t (Response.ok 3) ∧ t.fr = State.reset.fr)

/-- R24, R50, R264: the step takes the first action of the host's list and executes the instruction it
presents, its inputs on the ports. That frames are presented so is log entries 6 and 7. -/
def Obligations.StepRunsThePresentedInstruction : Prop :=
  (∀ s rest w c x, s.pending = .operation w c x :: rest →
    ∃ t, step s = exec (decode (.command w)) t ∧ t.fr = s.fr ∧ t.responses = s.responses ∧ t.pending = rest
      ∧ t.acs = c ∧ t.rx = x)
  ∧ (∀ s rest f, s.pending = .received f :: rest →
    ∃ t, step s = exec (decode (.received f)) t ∧ t.fr = s.fr ∧ t.responses = s.responses ∧ t.pending = rest
      ∧ t.acs = s.acs ∧ t.rx = { n := 2, w0 := f.extractLsb' 0 64, w1 := f.extractLsb' 64 64 })
  ∧ (∀ s rest f, s.pending = .encoded f :: rest →
    ∃ t, step s = exec (decode (.encoded f)) t ∧ t.fr = s.fr ∧ t.responses = s.responses ∧ t.pending = rest
      ∧ t.acs = s.acs ∧ t.rx = { n := 2, w0 := f.extractLsb' 0 64, w1 := f.extractLsb' 64 64 })

/-- R250, R251: with no action to come the block stays as it is (log entry 2); the reset event clears the
frame register, as `FCLR` would, answers nothing (log entry 13) and changes nothing else. -/
def Obligations.IdleAndResetEvent : Prop :=
  (∀ s, s.pending = [] → step s = .next s)
  ∧ (∀ s rest, s.pending = .reset :: rest →
    ∃ t, step s = .next t ∧ (∀ k, t.fr.byte k = 0) ∧ t.responses = s.responses ∧ t.acs = s.acs ∧ t.rx = s.rx
      ∧ t.pending = rest ∧ ∀ a d, ∃ u, exec (.fclr a d) s = .next u ∧ u.fr = t.fr)

/-- Log entries 10 and 11: an instruction placed by its value in the opcode table's numbering is the next one
the step executes. -/
def Obligations.PlacedWordRunsNext : Prop :=
  ∀ (s : State) (nbits w : Nat) (i : Instr), decodeTableWord nbits w = some i →
    ∃ t, step (s.withFetchWord nbits w) = exec i t ∧ t.fr = s.fr ∧ t.responses = s.responses
      ∧ t.pending = s.pending ∧ t.acs = s.acs

/-! ### Encodings -/

/-- R91 (with R90): the sixteen values of `op`, for every value of both operand bytes. -/
def Obligations.OpSelectsTheOperation : Prop :=
  ∀ a d : Byte,
    decode (.command (commandWord 0x0 a d)) = .fclr a d
    ∧ decode (.command (commandWord 0x1 a d)) = .frdb a d
    ∧ decode (.command (commandWord 0x2 a d)) = .fwrb a d
    ∧ decode (.command (commandWord 0x3 a d)) = .frdf a d
    ∧ decode (.command (commandWord 0x4 a d)) = .fwrf a d
    ∧ decode (.command (commandWord 0x5 a d)) = .frdbit a d
    ∧ decode (.command (commandWord 0x6 a d)) = .fwrbit a d
    ∧ decode (.command (commandWord 0x7 a d)) = .fmirror a d
    ∧ decode (.command (commandWord 0x8 a d)) = .fpack a d
    ∧ decode (.command (commandWord 0x9 a d)) = .funpack a d
    ∧ decode (.command (commandWord 0xA a d)) = .csum a d
    ∧ decode (.command (commandWord 0xB a d)) = .csapply a d
    ∧ decode (.command (commandWord 0xC a d)) = .cschk a d
    ∧ decode (.command (commandWord 0xD a d)) = .encode a d
    ∧ decode (.command (commandWord 0xE a d)) = .decode a d
    ∧ decode (.command (commandWord 0xF a d)) = .adjust a d

/-- R93: the nine classes of a received frame by their match and mask, no bit of the frame lost. -/
def Obligations.ReceivedFrameHasItsClass : Prop :=
  ∀ f : FrameBits,
    (f &&& 0x8#128 = 0x0#128 →
      ∃ m r, decode (.received f) = .acOff m r ∧ encode (.acOff m r) = .received f)
    ∧ (f &&& 0xF#128 = 0x8#128 →
      ∃ r, decode (.received f) = .acAuto r ∧ encode (.acAuto r) = .received f)
    ∧ (f &&& 0xF#128 = 0x9#128 →
      ∃ r, decode (.received f) = .acCool r ∧ encode (.acCool r) = .received f)
    ∧ (f &&& 0xF#128 = 0xA#128 →
      ∃ r, decode (.received f) = .acDry r ∧ encode (.acDry r) = .received f)
    ∧ (f &&& 0xF#128 = 0xB#128 →
      ∃ r, decode (.received f) = .acFan r ∧ encode (.acFan r) = .received f)
    ∧ (f &&& 0xF#128 = 0xC#128 →
      ∃ r, decode (.received f) = .acHeat r ∧ encode (.acHeat r) = .received f)
    ∧ (f &&& 0xF#128 = 0xD#128 →
      ∃ r, decode (.received f) = .acRsv5 r ∧ encode (.acRsv5 r) = .received f)
    ∧ (f &&& 0xF#128 = 0xE#128 →
      ∃ r, decode (.received f) = .acRsv6 r ∧ encode (.acRsv6 r) = .received f)
    ∧ (f &&& 0xF#128 = 0xF#128 →
      ∃ r, decode (.received f) = .acRsv7 r ∧ encode (.acRsv7 r) = .received f)

/-- Decoding the encoding of a well-formed instruction gives it back, with every operand (R83, R90 to R93;
log entries 7 and 15). -/
def Obligations.DecodeUndoesEncode : Prop := ∀ i : Instr, WellFormed i = true → decode (encode i) = i

/-- The other direction: a command word and a received frame each have one meaning, and what is decoded is
well-formed (R91, R93). -/
def Obligations.EncodeUndoesDecode : Prop :=
  (∀ w, encode (decode (.command w)) = .command w)
  ∧ (∀ f, encode (decode (.received f)) = .received f)
  ∧ (∀ p, WellFormed (decode p) = true)

/-- Words written out from the spec's encodings (R100 and the vectors of 95_test_vectors.md). -/
def Obligations.WordsOfTheSpecDecode : Prop :=
  decode (.command 0x40508#20) = .fwrf 5 8
  ∧ decode (.command 0x10300#20) = .frdb 3 0
  ∧ decode (.command 0xA0100#20) = .csum 1 0
  ∧ decode (.command 0xD0000#20) = .encode 0 0
  ∧ decode (.command 0x01234#20) = .fclr 0x12 0x34
  ∧ decode (.received 0xD000000070200839B000000050200839#128) = .acCool 0xD000000070200839B00000005020083#124
  ∧ decode (.received 0xC000000070000E07A000000050000E07#128) = .acOff 7 0xC000000070000E07A000000050000E0#124
  ∧ decode (.encoded 0xD000000070200839B000000050200839#128) = .cfEncoded 1 1 3 8 1 0 0xB 0xD

/-- R43, R73, R120: identifier, byte, lowest bit and width of the fifteen named fields. The positions are the
spec's own decision D3. -/
def Obligations.FieldTable : Prop :=
  (∀ a : Byte, (a.toNat ≤ 14 ↔ (fieldId a).isSome = true))
  ∧ ((List.range 15).map fun n =>
      (fieldId (BitVec.ofNat 8 n)).map fun f => (f, f.byte.val, f.lo, f.width))
    = [some (.mode, 0, 0, 3), some (.power, 0, 3, 1), some (.basicFan, 0, 4, 2), some (.swingAuto, 0, 6, 1),
       some (.sleep, 0, 7, 1), some (.temp, 1, 0, 4), some (.turbo, 2, 4, 1), some (.light, 2, 5, 1),
       some (.ionFilter, 2, 6, 1), some (.xFan, 2, 7, 1), some (.mark1, 3, 4, 4), some (.swingV, 4, 0, 4),
       some (.sum1, 7, 4, 4), some (.mark2, 11, 4, 4), some (.sum2, 15, 4, 4)]

/-! ### The frame model -/

/-- R110. -/
def Obligations.FclrClearsTheFrame : Prop :=
  ∀ (a d : Byte) (s : State), decode (.command (commandWord 0x0 a d)) = .fclr a d
    ∧ ∃ t, exec (.fclr a d) s = .next t ∧ (∀ k, t.fr.byte k = 0) ∧ s.Answered t (Response.ok 0)

/-- R111. -/
def Obligations.FrdbReadsItsByte : Prop :=
  ∀ (a d : Byte) (s : State), decode (.command (commandWord 0x1 a d)) = .frdb a d
    ∧ (∀ h : a.toNat < 16, ∃ t, exec (.frdb a d) s = .next t ∧ t.fr = s.fr
        ∧ s.Answered t (Response.ok (s.fr.byte ⟨a.toNat, h⟩)))
    ∧ (16 ≤ a.toNat → AnswersBadOperand (.frdb a d) s)

/-- R112, with the field view of R122 (c). -/
def Obligations.FwrbWritesItsByte : Prop :=
  ∀ (a d : Byte) (s : State), decode (.command (commandWord 0x2 a d)) = .fwrb a d
    ∧ (a.toNat < 16 → ∃ t, exec (.fwrb a d) s = .next t
        ∧ (∀ j : Fin 16, t.fr.byte j = if j.val = a.toNat then d else s.fr.byte j)
        ∧ (∀ f : Field, f.byte.val = a.toNat → (t.fr.readField f).toNat = d.toNat / 2 ^ f.lo % 2 ^ f.width)
        ∧ s.Answered t (Response.ok 0))
    ∧ (16 ≤ a.toNat → AnswersBadOperand (.fwrb a d) s)

/-- R113. -/
def Obligations.FrdfReadsItsField : Prop :=
  ∀ (a d : Byte) (s : State), decode (.command (commandWord 0x3 a d)) = .frdf a d
    ∧ (a.toNat ≤ 14 → ∃ f, fieldId a = some f ∧ ∃ t q, exec (.frdf a d) s = .next t ∧ t.fr = s.fr
        ∧ s.Answered t (Response.ok q) ∧ q.toNat = (s.fr.byte f.byte).toNat / 2 ^ f.lo % 2 ^ f.width)
    ∧ (15 ≤ a.toNat → AnswersBadOperand (.frdf a d) s)

/-- R114: the bits of the field come from the low bits of `d`, every other bit of the frame is kept. -/
def Obligations.FwrfWritesItsField : Prop :=
  ∀ (a d : Byte) (s : State), decode (.command (commandWord 0x4 a d)) = .fwrf a d
    ∧ (a.toNat ≤ 14 → ∃ f, fieldId a = some f ∧ ∃ t, exec (.fwrf a d) s = .next t
        ∧ (∀ n : Fin 128, t.fr.bit n =
            if 8 * f.byte.val + f.lo ≤ n.val ∧ n.val < 8 * f.byte.val + f.lo + f.width
            then d.getLsbD (n.val - (8 * f.byte.val + f.lo)) else s.fr.bit n)
        ∧ s.Answered t (Response.ok 0))
    ∧ (15 ≤ a.toNat → AnswersBadOperand (.fwrf a d) s)

/-- R115. -/
def Obligations.FrdbitReadsItsBit : Prop :=
  ∀ (a d : Byte) (s : State), decode (.command (commandWord 0x5 a d)) = .frdbit a d
    ∧ (∀ h : a.toNat / 8 < 16, ∃ t, exec (.frdbit a d) s = .next t ∧ t.fr = s.fr
        ∧ s.Answered t
            (Response.ok (if (s.fr.byte ⟨a.toNat / 8, h⟩).getLsbD (a.toNat % 8) = true then 1 else 0)))
    ∧ (128 ≤ a.toNat → AnswersBadOperand (.frdbit a d) s)

/-- R116: the bit becomes `d[0]`, every other bit of the frame is kept. -/
def Obligations.FwrbitWritesItsBit : Prop :=
  ∀ (a d : Byte) (s : State), decode (.command (commandWord 0x6 a d)) = .fwrbit a d
    ∧ (a.toNat < 128 → ∃ t, exec (.fwrbit a d) s = .next t
        ∧ (∀ n : Fin 128, t.fr.bit n = if n.val = a.toNat then d.getLsbD 0 else s.fr.bit n)
        ∧ s.Answered t (Response.ok 0))
    ∧ (128 ≤ a.toNat → AnswersBadOperand (.fwrbit a d) s)

/-- R117. -/
def Obligations.FmirrorCopiesTheBlock : Prop :=
  ∀ (a d : Byte) (s : State), decode (.command (commandWord 0x7 a d)) = .fmirror a d
    ∧ ∃ t, exec (.fmirror a d) s = .next t
      ∧ t.fr.byte 8 = s.fr.byte 0 ∧ t.fr.byte 9 = s.fr.byte 1 ∧ t.fr.byte 10 = s.fr.byte 2
      ∧ (∀ k : Fin 16, k ≠ 8 → k ≠ 9 → k ≠ 10 → t.fr.byte k = s.fr.byte k)
      ∧ s.Answered t (Response.ok 0)

/-- R118 with R46: byte `j` of a half-frame in bits `8j+7` to `8j` of its word. -/
def Obligations.FpackPresentsTheFrame : Prop :=
  ∀ (a d : Byte) (s : State), decode (.command (commandWord 0x8 a d)) = .fpack a d
    ∧ ∃ t w0 w1, exec (.fpack a d) s = .next t ∧ t.fr = s.fr
      ∧ s.Answered t { status := .ok, q := 0, tx := some { valid := false, w0 := w0, w1 := w1 }
                       upd := none, adj := none }
      ∧ ∀ (j : Nat) (hj : j < 8), w0.extractLsb' (8 * j) 8 = s.fr.byte ⟨j, by omega⟩
          ∧ w1.extractLsb' (8 * j) 8 = s.fr.byte ⟨8 + j, by omega⟩

/-- R119 with R47: the frame is the two words, whatever `rx_n` is. -/
def Obligations.FunpackLoadsTheWords : Prop :=
  ∀ (a d : Byte) (s : State), decode (.command (commandWord 0x9 a d)) = .funpack a d
    ∧ ∃ t, exec (.funpack a d) s = .next t
      ∧ (∀ (j : Nat) (hj : j < 8), t.fr.byte ⟨j, by omega⟩ = s.rx.w0.extractLsb' (8 * j) 8
          ∧ t.fr.byte ⟨8 + j, by omega⟩ = s.rx.w1.extractLsb' (8 * j) 8)
      ∧ s.Answered t (Response.ok 0)

/-- R47: the marshalling loses no bit and invents none, in both directions. -/
def Obligations.PackAndUnpackAreInverse : Prop :=
  (∀ (s t : State) (a d a' d' : Byte), exec (.funpack a d) s = .next t →
    ∃ u r, exec (.fpack a' d') t = .next u ∧ u.lastResponse = some r
      ∧ r.tx = some { valid := false, w0 := s.rx.w0, w1 := s.rx.w1 })
  ∧ (∀ (s t u : State) (a d a' d' : Byte) (r : Response) (x : Tx), exec (.fpack a d) s = .next t →
    t.lastResponse = some r → r.tx = some x → u.rx.w0 = x.w0 → u.rx.w1 = x.w1 →
    ∃ v, exec (.funpack a' d') u = .next v ∧ v.fr = s.fr)

/-- R122 (a), (b): after a field write the field reads the value modulo `2 ^ W`, and every other field reads
what it read before. -/
def Obligations.FieldsReadBackAndAreIndependent : Prop :=
  ∀ (a b d e : Byte) (s t : State) (f : Field), fieldId a = some f → b.toNat ≤ 14 →
    exec (.fwrf a d) s = .next t →
    ∃ u q, exec (.frdf b e) t = .next u ∧ t.Answered u (Response.ok q)
      ∧ (b = a → q.toNat = d.toNat % 2 ^ f.width)
      ∧ (b ≠ a → ∃ v, exec (.frdf b e) s = .next v ∧ s.Answered v (Response.ok q))

/-- R49: no inspection has a side effect; repeated, it answers the same. -/
def Obligations.InspectionHasNoSideEffect : Prop :=
  ∀ (i : Instr) (s t : State), Inspects i → exec i s = .next t →
    t.fr = s.fr ∧ ∃ u, exec i t = .next u ∧ u.fr = s.fr ∧ u.lastResponse = t.lastResponse

/-- R49: every operation is idempotent on the frame register: repeated on the same inputs, it leaves the same
`FR` as done once. -/
def Obligations.RepeatingLeavesTheSameFrame : Prop :=
  ∀ (i : Instr) (s t : State), exec i s = .next t → ∃ u, exec i t = .next u ∧ u.fr = t.fr

/-! ### The checksum -/

/-- R142 with R140: the sum of the fourteen nibbles modulo 16. -/
def Obligations.CsumSumsTheNibbles : Prop :=
  ∀ (a d : Byte) (s : State), decode (.command (commandWord 0xA a d)) = .csum a d
    ∧ (∀ h : a.toNat < 2, ∃ t q, exec (.csum a d) s = .next t ∧ t.fr = s.fr ∧ s.Answered t (Response.ok q)
        ∧ q.toNat = s.fr.nibbleTotal ⟨a.toNat, h⟩ % 16)
    ∧ (2 ≤ a.toNat → AnswersBadOperand (.csum a d) s)

/-- R143: both sums are stored, both low nibbles kept; `CSCHK` then answers 3, and applying again changes
nothing. -/
def Obligations.CsapplyStoresBothSums : Prop :=
  ∀ (a d : Byte) (s : State), decode (.command (commandWord 0xB a d)) = .csapply a d
    ∧ ∃ t, exec (.csapply a d) s = .next t
      ∧ (t.fr.byte 7).toNat = 16 * (s.fr.nibbleTotal 0 % 16) + (s.fr.byte 7).toNat % 16
      ∧ (t.fr.byte 15).toNat = 16 * (s.fr.nibbleTotal 1 % 16) + (s.fr.byte 15).toNat % 16
      ∧ (∀ k : Fin 16, k ≠ 7 → k ≠ 15 → t.fr.byte k = s.fr.byte k)
      ∧ s.Answered t (Response.ok 0)
      ∧ (∃ u, exec (.cschk 0 0) t = .next u ∧ t.Answered u (Response.ok 3))
      ∧ (∃ u, exec (.csapply a d) t = .next u ∧ u.fr = t.fr)

/-- R144 with R145: the two match bits, with status OK whatever they are. -/
def Obligations.CschkAnswersTheMatchBits : Prop :=
  ∀ (a d : Byte) (s : State), decode (.command (commandWord 0xC a d)) = .cschk a d
    ∧ ∃ t q, exec (.cschk a d) s = .next t ∧ t.fr = s.fr ∧ s.Answered t (Response.ok q)
      ∧ q.toNat = (if s.fr.SumMatches 0 then 1 else 0) + (if s.fr.SumMatches 1 then 2 else 0)

/-- R147 (a) to (c), with R81: inverting one bit of a checksum-valid frame breaks it, unless the bit lies in
the low nibble of byte 7 or 15, which nothing covers. -/
def Obligations.SingleBitErrorIsDetected : Prop :=
  ∀ (s t : State) (n : Fin 128) (d : Byte), s.fr.Valid → d.getLsbD 0 = !s.fr.bit n →
    exec (.fwrbit (BitVec.ofNat 8 n.val) d) s = .next t →
    (t.fr.Valid ↔ (56 ≤ n.val ∧ n.val ≤ 59) ∨ (120 ≤ n.val ∧ n.val ≤ 123))

/-! ### The encoder -/

/-- R160 in the closed form of R177: inside the contract `ENCODE` succeeds, leaves the encoded frame in `FR`
and drives its two words with `tx_valid` = 1. Byte 4 is 0 on this hardware, `SWINGV_WIRED` = 0 (R6, D6). -/
def Obligations.EncodeBuildsTheFrame : Prop :=
  ∀ (a d : Byte) (s : State), decode (.command (commandWord 0xD a d)) = .encode a d
    ∧ (s.acs.InEncodeContract → ∃ t w0 w1, exec (.encode a d) s = .next t
      ∧ (t.fr.byte 0).toNat
          = (if s.acs.mode.toNat = 5 then 0 else s.acs.mode.toNat)
            + 8 * (if s.acs.mode.toNat = 0 then 0 else 1)
            + 16 * (if s.acs.fanSet = true then s.acs.fan.toNat else 0)
      ∧ (t.fr.byte 1).toNat = s.acs.temp.toNat - 16
      ∧ (t.fr.byte 2).toNat = (if s.acs.light = true then 32 else 0)
      ∧ t.fr.byte 3 = 0x50 ∧ t.fr.byte 4 = 0 ∧ t.fr.byte 5 = 0 ∧ t.fr.byte 6 = 0
      ∧ (t.fr.byte 7).toNat = 16 * (t.fr.nibbleTotal 0 % 16)
      ∧ t.fr.byte 8 = t.fr.byte 0 ∧ t.fr.byte 9 = t.fr.byte 1 ∧ t.fr.byte 10 = t.fr.byte 2
      ∧ t.fr.byte 11 = 0x70 ∧ t.fr.byte 12 = 0 ∧ t.fr.byte 13 = 0 ∧ t.fr.byte 14 = 0
      ∧ (t.fr.byte 15).toNat = 16 * (t.fr.nibbleTotal 1 % 16)
      ∧ s.Answered t { status := .ok, q := 0, tx := some { valid := true, w0 := w0, w1 := w1 }
                       upd := none, adj := none }
      ∧ ∀ (j : Nat) (hj : j < 8), w0.extractLsb' (8 * j) 8 = t.fr.byte ⟨j, by omega⟩
          ∧ w1.extractLsb' (8 * j) 8 = t.fr.byte ⟨8 + j, by omega⟩)

/-- R175, for either value of `SWINGV_WIRED`, with the value R167 gives byte 4; and for the frame that `ENCODE`
leaves in `FR` and drives on `tx`. -/
def Obligations.EncodedFramesKeepTheirInvariants : Prop :=
  (∀ (wired : Bool) (mode : AbsMode) (temp : Byte) (fan : Option AbsFan) (swing : AbsSwing) (light : Bool),
    16 ≤ temp.toNat → temp.toNat ≤ 30 →
    (encodeFrame wired mode temp fan swing light).IsEncoded wired
    ∧ (wired = true →
        ((encodeFrame wired mode temp fan swing light).byte 4).toNat = if swing = .vertical then 1 else 0))
  ∧ (∀ (a d : Byte) (s : State), s.acs.InEncodeContract →
    ∃ t r x, exec (.encode a d) s = .next t ∧ t.lastResponse = some r ∧ r.tx = some x
      ∧ t.fr.IsEncoded Config.swingVWired ∧ unpack x.w0 x.w1 = t.fr)

/-- R148: the two stored sums of an encoded frame differ by the markers' 2, or by 1 when `SwingV` is wired and
the swing is on. -/
def Obligations.StoredSumsDifferByTheMarkers : Prop :=
  ∀ (wired : Bool) (mode : AbsMode) (temp : Byte) (fan : Option AbsFan) (swing : AbsSwing) (light : Bool),
    16 ≤ temp.toNat → temp.toNat ≤ 30 →
    ((encodeFrame wired mode temp fan swing light).byte 15).toNat / 16 =
      (((encodeFrame wired mode temp fan swing light).byte 7).toNat / 16
        + if wired = true ∧ swing = .vertical then 1 else 2) % 16

/-- R172, R180, R225, with U6 and U7: outside their contracts `ENCODE` and `ADJUST` are refused. Which name the
refusal has, and that the mode is looked at first, is log entry 8. -/
def Obligations.CallsOutsideTheContractAreRefused : Prop :=
  ∀ (a d : Byte) (s : State),
    (6 ≤ s.acs.mode.toNat → exec (.encode a d) s = .refused .encodeModeNamesNoMode)
    ∧ (s.acs.mode.toNat ≤ 5 → s.acs.temp.toNat < 16 ∨ 30 < s.acs.temp.toNat →
        exec (.encode a d) s = .refused .encodeTemperatureOutsideContract)
    ∧ (6 ≤ s.acs.mode.toNat → exec (.adjust a d) s = .refused .adjustModeNamesNoMode)

/-- R176: `ENCODE` leaves what the sequence of frame model and checksum operations leaves, and `FPACK` then
returns the words `ENCODE` drives. -/
def Obligations.EncodeEqualsItsOperationSequence : Prop :=
  ∀ (a d p m t f l : Byte) (s : State), s.acs.InEncodeContract →
    p = (if s.acs.mode = 0 then 0 else 1) →
    m = (if s.acs.mode = 5 then 0 else s.acs.mode.setWidth 8) →
    t = s.acs.temp - 16 →
    f = (if s.acs.fanSet = true then s.acs.fan.setWidth 8 else 0) →
    l = (if s.acs.light = true then 1 else 0) →
    ∃ u v w r r' x, exec (.encode a d) s = .next u
      ∧ runInstrs [.fclr 0 0, .fwrf 1 p, .fwrf 0 m, .fwrf 5 t, .fwrf 2 f, .fwrf 7 l, .fmirror 0 0,
          .fwrb 3 0x50, .fwrb 11 0x70, .csapply 0 0] s = .next v
      ∧ v.fr = u.fr
      ∧ exec (.fpack 0 0) v = .next w
      ∧ u.lastResponse = some r ∧ r.tx = some x ∧ w.lastResponse = some r'
      ∧ r'.tx = some { valid := false, w0 := x.w0, w1 := x.w1 }

/-- R180: the two adjusted values, for every mode code inside the contract and every temperature. -/
def Obligations.AdjustForcesSwingAndSetpoint : Prop :=
  ∀ (a d : Byte) (s : State), decode (.command (commandWord 0xF a d)) = .adjust a d
    ∧ (s.acs.mode.toNat ≤ 5 → ∃ t, exec (.adjust a d) s = .next t ∧ t.fr = s.fr
        ∧ s.Answered t
            { status := .ok, q := 0, tx := none, upd := none
              adj := some { swing := if s.acs.mode = 0 then 0 else s.acs.swing
                            temp := if s.acs.mode = 5 ∨ s.acs.mode = 3 then 25 else s.acs.temp } })

/-- R182 with R181: a host that adjusts and writes back before it encodes sends `Temp` = 9 in the modes that
ignore temperature, and holds swing OFF when the mode is OFF. -/
def Obligations.AdjustedFramesCarryTheSetpoint : Prop :=
  ∀ (c : ClimateState) (unread : BitVec 2) (s t : State) (r : Response) (a d : Byte),
    s.acs = c.toAcs unread → exec (.adjust a d) s = .next t → t.lastResponse = some r →
    (c.mode = .off → (c.afterAdjust r).swing = .off ∧ (c.afterAdjust r).temp = c.temp)
    ∧ (c.mode = .heatCool ∨ c.mode = .fanOnly → (c.afterAdjust r).swing = c.swing ∧
        ∀ u : State, u.acs = (c.afterAdjust r).toAcs unread →
          ∃ v, exec (.encode a d) u = .next v ∧ v.fr.readField .temp = 9)

/-! ### The decoder -/

/-- R191, R221: fewer than two words. Nothing is loaded and nothing is to be merged; the answer is one and the
same for all words and counts, since neither word is read. -/
def Obligations.DecodeRejectsShortInput : Prop :=
  ∃ r : Response, r.FailsWith .unhandledShort
    ∧ ∀ (a d : Byte) (s : State), s.rx.n.toNat < 2 →
      ∃ t, exec (.decode a d) s = .next t ∧ t.fr = s.fr ∧ s.Answered t r

/-- R193 (with R192): either checksum mismatched. The frame is loaded and nothing is to be merged; the answer is
one and the same for all such frames: no field is interpreted, and the status does not say which sum failed. -/
def Obligations.DecodeRejectsBadChecksum : Prop :=
  ∃ r : Response, r.FailsWith .unhandledCsum
    ∧ ∀ (a d : Byte) (s : State), 2 ≤ s.rx.n.toNat → ¬ (unpack s.rx.w0 s.rx.w1).Valid →
      ∃ t, exec (.decode a d) s = .next t ∧ t.fr = unpack s.rx.w0 s.rx.w1 ∧ s.Answered t r

/-- R190 with R196 to R200: what a checksum-valid frame delivers, read off bytes 0 and 1 of half-frame 0. -/
def Obligations.DecodeDeliversTheUpdate : Prop :=
  ∀ (a d : Byte) (s : State), decode (.command (commandWord 0xE a d)) = .decode a d
    ∧ (2 ≤ s.rx.n.toNat → (unpack s.rx.w0 s.rx.w1).Valid →
      ∃ t x, exec (.decode a d) s = .next t ∧ t.fr = unpack s.rx.w0 s.rx.w1
        ∧ s.Answered t { status := .ok, q := 0, tx := none, upd := some x, adj := none }
        ∧ x.valid = true
        ∧ (t.fr.bit 3 = false → x.modeWe = true ∧ x.mode = some 0)
        ∧ (t.fr.bit 3 = true → (t.fr.byte 0).toNat % 8 = 0 → x.modeWe = true ∧ x.mode = some 5)
        ∧ (t.fr.bit 3 = true → 1 ≤ (t.fr.byte 0).toNat % 8 → (t.fr.byte 0).toNat % 8 ≤ 4 →
            x.modeWe = true ∧ x.mode = some ((t.fr.byte 0).extractLsb' 0 3))
        ∧ (t.fr.bit 3 = true → 5 ≤ (t.fr.byte 0).toNat % 8 → x.modeWe = false)
        ∧ (∃ y, x.temp = some y ∧ y.toNat = (t.fr.byte 1).toNat % 16 + 16)
        ∧ (∃ y, x.fan = some y ∧ y.toNat = (t.fr.byte 0).toNat / 16 % 4))

/-- R205: `AC.OFF` delivers OFF whatever `Mode` is. -/
def Obligations.PowerOffClassDelivers : Prop :=
  ∀ (m : BitVec 3) (r : BitVec 124) (s : State) (f : FrameBits), encode (.acOff m r) = .received f →
    (Frame.ofBits f).Valid → DeliversFrame (.acOff m r) f (some 0) s

/-- R206 to R210: the classes of a defined `Mode` deliver HEAT_COOL, COOL, DRY, FAN_ONLY and HEAT. -/
def Obligations.DefinedModeClassesDeliver : Prop :=
  ∀ (r : BitVec 124) (s : State) (f : FrameBits),
    (encode (.acAuto r) = .received f → (Frame.ofBits f).Valid → DeliversFrame (.acAuto r) f (some 5) s)
    ∧ (encode (.acCool r) = .received f → (Frame.ofBits f).Valid → DeliversFrame (.acCool r) f (some 1) s)
    ∧ (encode (.acDry r) = .received f → (Frame.ofBits f).Valid → DeliversFrame (.acDry r) f (some 2) s)
    ∧ (encode (.acFan r) = .received f → (Frame.ofBits f).Valid → DeliversFrame (.acFan r) f (some 3) s)
    ∧ (encode (.acHeat r) = .received f → (Frame.ofBits f).Valid → DeliversFrame (.acHeat r) f (some 4) s)

/-- R211: the reserved-mode classes deliver temperature and fan and no mode. -/
def Obligations.ReservedModeClassesDeliver : Prop :=
  ∀ (r : BitVec 124) (s : State) (f : FrameBits),
    (encode (.acRsv5 r) = .received f → (Frame.ofBits f).Valid → DeliversFrame (.acRsv5 r) f none s)
    ∧ (encode (.acRsv6 r) = .received f → (Frame.ofBits f).Valid → DeliversFrame (.acRsv6 r) f none s)
    ∧ (encode (.acRsv7 r) = .received f → (Frame.ofBits f).Valid → DeliversFrame (.acRsv7 r) f none s)

/-- A frame of the pattern R83 handed back is decoded like any frame (R190, R212; log entry 7). -/
def Obligations.EncodedPatternIsDecoded : Prop :=
  ∀ (m : BitVec 3) (p : BitVec 1) (fan : BitVec 2) (t : BitVec 4) (l : BitVec 1) (v s1 s2 : BitVec 4)
    (s : State) (f : FrameBits), encode (.cfEncoded m p fan t l v s1 s2) = .encoded f →
    (Frame.ofBits f).Valid →
    DeliversFrame (.cfEncoded m p fan t l v s1 s2) f
      (if p = 0 then some 0 else if m = 0 then some 5 else if m.toNat ≤ 4 then some m else none) s

/-- R193, R222: a presented frame whose checksums do not match is rejected, whatever its class. -/
def Obligations.PresentedFramesWithBadSumsAreRejected : Prop :=
  ∀ (i : Instr) (s : State) (f : FrameBits), encode i = .received f ∨ encode i = .encoded f →
    ¬ (Frame.ofBits f).Valid → RejectsFrame i f s

/-- R93 and R204 to R211 against R190: to present a frame by its class, or as an encoded frame, is to decode
its two words. -/
def Obligations.FrameClassesRefineDecode : Prop :=
  ∀ (f : FrameBits) (a d : Byte) (s : State), 2 ≤ s.rx.n.toNat → s.rx.w0 = f.extractLsb' 0 64 →
    s.rx.w1 = f.extractLsb' 64 64 →
    exec (decode (.received f)) s = exec (.decode a d) s ∧ exec (decode (.encoded f)) s = exec (.decode a d) s

/-- R204: `DECODE` of two words is `FUNPACK` of them, then `CSCHK`: it succeeds exactly when that answers 3. -/
def Obligations.DecodeIsUnpackThenCheck : Prop :=
  ∀ (a d : Byte) (s t u v : State) (r r' : Response), 2 ≤ s.rx.n.toNat → exec (.decode a d) s = .next t →
    exec (.funpack a d) s = .next u → exec (.cschk a d) u = .next v →
    t.lastResponse = some r → v.lastResponse = some r' → t.fr = u.fr ∧ (r.status = .ok ↔ r'.q = 3)

/-- R212, for every abstract state inside the contract, OFF included, unset fan read as AUTO (C5): encoding
it, decoding the words driven and merging into whatever the host then holds gives back mode, temperature and
fan, and leaves the host's swing and light (R202). -/
def Obligations.EncodeThenDecodeRoundTrip : Prop :=
  ∀ (c : ClimateState) (unread : BitVec 2) (s : State) (a d a' d' : Byte),
    16 ≤ c.temp.toNat → c.temp.toNat ≤ 30 → s.acs = c.toAcs unread →
    ∃ t r x, exec (.encode a d) s = .next t ∧ t.lastResponse = some r ∧ r.tx = some x ∧ x.valid = true
      ∧ ∀ u : State, 2 ≤ u.rx.n.toNat → u.rx.w0 = x.w0 → u.rx.w1 = x.w1 →
        ∃ v r', exec (.decode a' d') u = .next v ∧ v.lastResponse = some r' ∧ r'.status = .ok
          ∧ ∀ h : ClimateState, h.afterDecode r' =
              { mode := c.mode, temp := c.temp, fan := some (c.fan.getD .auto), swing := h.swing
                light := h.light }

/-- R195, R203: what `DECODE` answers for a checksum-valid frame depends on frame bits 5..0 and 11..8 alone. -/
def Obligations.DecodeReadsFourFieldsOnly : Prop :=
  ∀ (s s' t t' : State) (a d : Byte), 2 ≤ s.rx.n.toNat → 2 ≤ s'.rx.n.toNat →
    (unpack s.rx.w0 s.rx.w1).Valid → (unpack s'.rx.w0 s'.rx.w1).Valid →
    s.rx.w0.extractLsb' 0 6 = s'.rx.w0.extractLsb' 0 6 → s.rx.w0.extractLsb' 8 4 = s'.rx.w0.extractLsb' 8 4 →
    exec (.decode a d) s = .next t → exec (.decode a d) s' = .next t' → t.lastResponse = t'.lastResponse

/-- R213 with R202: the host merges a `DECODE` response on OK only, and that merge never changes its swing or its
light (log entry 16). The write-back of an `ADJUST` response (R181) is another function and is not meant. -/
def Obligations.MergeHappensOnlyOnSuccess : Prop :=
  ∀ (c : ClimateState) (r : Response),
    (r.status ≠ .ok → c.afterDecode r = c)
    ∧ (c.afterDecode r).swing = c.swing ∧ (c.afterDecode r).light = c.light
    ∧ (∀ x, r.status = .ok → r.upd = some x → x.valid = true → x.modeWe = false →
        (c.afterDecode r).mode = c.mode)

/-- R214: the mapping tables, in both directions. -/
def Obligations.MappingTablesAreInverse : Prop :=
  (∀ x, absFan (devFan x) = x) ∧ (∀ y, devFan (absFan y) = y)
  ∧ (∀ x, x ≠ .off → absMode (devMode x) = x) ∧ (∀ y, devMode (absMode y) = y)
  ∧ devMode .off = .auto

/-! ### Over all instructions -/

/-- R50, R49: every operation that completes gives exactly one response and leaves the ports and the host's
list as they were. -/
def Obligations.EveryOperationAnswersOnce : Prop :=
  ∀ (i : Instr) (s t : State), exec i s = .next t → ∃ r, s.Answered t r

/-- R22, last column: the bytes of `FR` an operation may write; every other byte is unchanged. -/
def Obligations.OperationsWriteOnlyTheirBytes : Prop :=
  ∀ (i : Instr) (s t : State) (k : Fin 16), exec i s = .next t → ¬ MayWrite i s k →
    t.fr.byte k = s.fr.byte k

/-- R22, middle column, with R29 and R59: of `FR`, a response depends on the bytes its operation reads alone; the
results of `ENCODE`, `DECODE` and `ADJUST` never depend on the old `FR`. Only `FR` is varied: the ports, the host's
list and the earlier responses are the same on both sides. -/
def Obligations.ResponsesDependOnTheBytesRead : Prop :=
  ∀ (i : Instr) (s t : State) (fr : Frame), (∀ k, MayReport i k → fr.byte k = s.fr.byte k) →
    exec i s = .next t → ∃ u, exec i (s.setFr fr) = .next u ∧ u.responses = t.responses

/-- R22, R59: `FCLR`, `FUNPACK`, `ENCODE` and a reception of two words overwrite `FR` whole: what they leave
does not depend on what it held. -/
def Obligations.WholeFrameWritesForgetTheOldFrame : Prop :=
  ∀ (i : Instr) (s t : State) (fr : Frame), (∀ k, MayWrite i s k) → exec i s = .next t →
    ∃ u, exec i (s.setFr fr) = .next u ∧ u.fr = t.fr

/-- R223: `BAD_OPERAND` is answered exactly for an index out of range, and then `FR` is unchanged, `q` is 0
and no bundle is driven. -/
def Obligations.BadOperandExactlyOutOfRange : Prop :=
  ∀ (i : Instr) (s : State),
    (OutOfRange i → AnswersBadOperand i s)
    ∧ (∀ t r, exec i s = .next t → t.lastResponse = some r → r.status = .badOperand → OutOfRange i)

/-- R220 to R222, R225, R229: the unhandled statuses come from a reception only, the short one from `DECODE`
with fewer than two words and from nothing else; an unhandled operation that received nothing leaves `FR`. -/
def Obligations.UnhandledComesFromReception : Prop :=
  ∀ (i : Instr) (s t : State) (r : Response), exec i s = .next t → t.lastResponse = some r →
    (r.status = .unhandledCsum → Receives i)
    ∧ (r.status = .unhandledShort ↔ (∃ a d, i = .decode a d) ∧ s.rx.n.toNat < 2)
    ∧ (r.status = .unhandledShort → t.fr = s.fr)

/-- Nothing has been answered at reset, so every response given is sound (the invariant's start). -/
def Obligations.ResetResponsesAreSound : Prop := State.reset.ResponsesSound

/-- R171, R258, R213, R221 to R223, R84, R85: whatever the host does, every step keeps every response sound:
only encoded frames are offered for transmission, a failure offers nothing to merge or send, and a valid
update carries defined values. -/
def Obligations.StepKeepsResponsesSound : Prop :=
  ∀ s t : State, s.ResponsesSound → step s = .next t → t.ResponsesSound

/-- R14, R17: a host that keeps its contract is never stopped, and stays such a host. -/
def Obligations.HonestHostIsNeverStopped : Prop :=
  ∀ s : State, s.HostKeepsContract → ∃ t, step s = .next t ∧ t.HostKeepsContract
end

