-- ==== Sys2Proof/Laws/State.lean ====
section
/-! SUPPORT. One lemma per field of the state and update of it, true by definition. -/

namespace Sys2Proof.Machine

variable (s : State) (fr : Frame) (r : Response) (l : List HostAction) (a : HostAction)

@[simp] theorem State.setFr_fr : (s.setFr fr).fr = fr := rfl
@[simp] theorem State.setFr_acs : (s.setFr fr).acs = s.acs := rfl
@[simp] theorem State.setFr_rx : (s.setFr fr).rx = s.rx := rfl
@[simp] theorem State.setFr_pending : (s.setFr fr).pending = s.pending := rfl
@[simp] theorem State.setFr_responses : (s.setFr fr).responses = s.responses := rfl

@[simp] theorem State.respond_fr : (s.respond r).fr = s.fr := rfl
@[simp] theorem State.respond_acs : (s.respond r).acs = s.acs := rfl
@[simp] theorem State.respond_rx : (s.respond r).rx = s.rx := rfl
@[simp] theorem State.respond_pending : (s.respond r).pending = s.pending := rfl
@[simp] theorem State.respond_responses : (s.respond r).responses = s.responses ++ [r] := rfl

@[simp] theorem State.withPending_fr : (s.withPending l).fr = s.fr := rfl
@[simp] theorem State.withPending_acs : (s.withPending l).acs = s.acs := rfl
@[simp] theorem State.withPending_rx : (s.withPending l).rx = s.rx := rfl
@[simp] theorem State.withPending_pending : (s.withPending l).pending = l := rfl
@[simp] theorem State.withPending_responses : (s.withPending l).responses = s.responses := rfl

@[simp] theorem State.applyReset_fr : s.applyReset.fr = Frame.zero := rfl
@[simp] theorem State.applyReset_acs : s.applyReset.acs = s.acs := rfl
@[simp] theorem State.applyReset_rx : s.applyReset.rx = s.rx := rfl
@[simp] theorem State.applyReset_pending : s.applyReset.pending = s.pending := rfl
@[simp] theorem State.applyReset_responses : s.applyReset.responses = s.responses := rfl

@[simp] theorem State.sample_fr : (s.sample a).fr = s.fr := by cases a <;> rfl
@[simp] theorem State.sample_pending : (s.sample a).pending = s.pending := by cases a <;> rfl
@[simp] theorem State.sample_responses : (s.sample a).responses = s.responses := by cases a <;> rfl
@[simp] theorem State.sample_operation_acs (w : CommandWord) (c : Acs) (x : Rx) :
    (s.sample (.operation w c x)).acs = c := rfl
@[simp] theorem State.sample_operation_rx (w : CommandWord) (c : Acs) (x : Rx) :
    (s.sample (.operation w c x)).rx = x := rfl
@[simp] theorem State.sample_received_acs (f : FrameBits) : (s.sample (.received f)).acs = s.acs := rfl
@[simp] theorem State.sample_received_rx (f : FrameBits) : (s.sample (.received f)).rx = Rx.ofBits f := rfl
@[simp] theorem State.sample_encoded_acs (f : FrameBits) : (s.sample (.encoded f)).acs = s.acs := rfl
@[simp] theorem State.sample_encoded_rx (f : FrameBits) : (s.sample (.encoded f)).rx = Rx.ofBits f := rfl

end Sys2Proof.Machine
end

