-- ==== Sys2Proof/Laws/Ops.lean ====
section
/-! SUPPORT. What each shared operation does, said once: the views of the frame register, the two ways an
operation ends, and the reception of a frame. -/

namespace Sys2Proof.Machine

/-! ### How an operation ends -/

/-- Completing answers one state: the frame register and the list of responses change, nothing else. -/
theorem complete_inv {fr : Frame} {r : Response} {s t : State} (h : complete fr r s = .next t) :
    t.fr = fr ∧ t.responses = s.responses ++ [r] ∧ t.acs = s.acs ∧ t.rx = s.rx ∧ t.pending = s.pending := by
  cases h; exact ⟨rfl, rfl, rfl, rfl, rfl⟩

/-- Raising answers one state: only the list of responses changes. -/
theorem raise_inv {e : Failure} {s t : State} (h : raise e s = .next t) :
    t.fr = s.fr ∧ t.responses = s.responses ++ [e.response] ∧ t.acs = s.acs ∧ t.rx = s.rx
      ∧ t.pending = s.pending := complete_inv h

/-- Receiving a frame always loads it and answers; which response is decided by the checksums alone. -/
theorem receive_eq (fr : Frame) (mode : Option AbsMode) (s : State) :
    receive fr mode s = .next ((s.setFr fr).respond
      (if fr.checksumValid then { Response.ok 0 with upd := some (updateOf mode fr) }
       else Failure.unhandledCsum.response)) := by
  unfold receive
  split <;> simp_all [complete, raise, State.setFr]

/-! ### The byte view -/

theorem Frame.byte_setByte (fr : Frame) (k j : Fin 16) (v : Byte) :
    (fr.setByte k v).byte j = if k = j then v else fr.byte j := by
  simp [Frame.byte, Frame.setByte, Vector.get_eq_getElem, Vector.getElem_set, Fin.ext_iff]

@[simp] theorem Frame.byte_zero (k : Fin 16) : Frame.zero.byte k = 0 := by
  simp [Frame.byte, Frame.zero, Vector.get_eq_getElem]

/-- Two frames with the same bytes are the same frame. -/
theorem Frame.ext_byte {fr fr' : Frame} (h : ∀ k, fr.byte k = fr'.byte k) : fr = fr' := by
  apply Vector.ext
  intro i hi
  simpa [Frame.byte, Vector.get_eq_getElem] using h ⟨i, hi⟩

/-! ### The field and bit views -/

/-- The place of a field lies inside its byte. -/
theorem Field.lo_add_width_le (f : Field) : f.lo + f.width ≤ 8 := by cases f <;> decide

theorem Field.mask_getLsbD (f : Field) (i : Nat) : f.mask.getLsbD i = decide (i < f.width) := by
  by_cases hi : i < 8
  · interval_cases i <;> cases f <;> decide
  · have hw : ¬ i < f.width := by have := f.lo_add_width_le; omega
    simp [BitVec.getLsbD_of_ge _ _ (Nat.le_of_not_lt hi), hw]

/-- Bit `i` of a field read is bit `lo + i` of its byte; the rest is zero extension. -/
theorem Frame.readField_getLsbD (fr : Frame) (f : Field) (i : Nat) :
    (fr.readField f).getLsbD i = (decide (i < f.width) && (fr.byte f.byte).getLsbD (f.lo + i)) := by
  have := f.lo_add_width_le
  by_cases h : i < f.width
  · have : i < 8 := by omega
    simp [Frame.readField, h, this]
  · simp [Frame.readField, h]

/-- Bit `i` of the byte a field write leaves: the field's bits come from the value, the others stay. -/
theorem Frame.writeField_getLsbD (fr : Frame) (f : Field) (v : Byte) (i : Nat) (hi : i < 8) :
    ((fr.writeField f v).byte f.byte).getLsbD i =
      if f.lo ≤ i ∧ i < f.lo + f.width then v.getLsbD (i - f.lo) else (fr.byte f.byte).getLsbD i := by
  simp only [Frame.writeField, Frame.byte_setByte, if_true, BitVec.getLsbD_or, BitVec.getLsbD_and,
    BitVec.getLsbD_not, BitVec.getLsbD_shiftLeft, Field.mask_getLsbD, hi, decide_true, Bool.true_and]
  by_cases h1 : i < f.lo
  · have : ¬ f.lo ≤ i := by omega
    simp [h1, this]
  · have h2 : f.lo ≤ i := by omega
    by_cases h3 : i < f.lo + f.width
    · have : i - f.lo < f.width := by omega
      simp [h1, h2, h3, this]
    · have : ¬ i - f.lo < f.width := by omega
      simp [h1, h3, this]

/-- A field write leaves every other byte. -/
theorem Frame.writeField_byte_ne (fr : Frame) (f : Field) (v : Byte) (k : Fin 16) (h : f.byte ≠ k) :
    (fr.writeField f v).byte k = fr.byte k := by
  simp [Frame.writeField, Frame.byte_setByte, h]

/-- Bit `i` of the byte a bit write leaves. -/
theorem Frame.setBit_getLsbD (fr : Frame) (n : Fin 128) (v : Bool) (i : Nat) (hi : i < 8) :
    ((fr.setBit n v).byte (bitByte n)).getLsbD i =
      if i = bitPosition n then v else (fr.byte (bitByte n)).getLsbD i := by
  have hp : bitPosition n < 8 := Nat.mod_lt _ (by decide)
  simp only [Frame.setBit, Frame.byte_setByte, if_true, BitVec.getLsbD_or, BitVec.getLsbD_and,
    BitVec.getLsbD_not, BitVec.getLsbD_shiftLeft, hi, decide_true, Bool.true_and]
  by_cases h1 : i = bitPosition n
  · subst h1; simp
  · by_cases h2 : i < bitPosition n
    · simp [h1, h2]
    · have h3 : 0 < i - bitPosition n := by omega
      have h4 : (1#8).getLsbD (i - bitPosition n) = false := by
        rw [BitVec.getLsbD_one]; simp; omega
      have h5 : ((BitVec.ofBool v).setWidth 8).getLsbD (i - bitPosition n) = false := by
        rw [BitVec.getLsbD_setWidth, BitVec.getLsbD_of_ge _ _ (by omega)]; simp
      simp [h1, h2, h4, h5]

/-- A bit write leaves every other byte. -/
theorem Frame.setBit_byte_ne (fr : Frame) (n : Fin 128) (v : Bool) (k : Fin 16) (h : bitByte n ≠ k) :
    (fr.setBit n v).byte k = fr.byte k := by
  simp [Frame.setBit, Frame.byte_setByte, h]

/-! ### The word view -/

/-- Byte `j` of word `h` of a packed frame. -/
theorem wordByte_word (fr : Frame) (h : Fin 2) (j : Fin 8) : wordByte (fr.word h) j = fr.byte (halfByte h j) := by
  apply BitVec.eq_of_getLsbD_eq
  intro i hi
  simp only [wordByte, Frame.word, BitVec.getLsbD_extractLsb', BitVec.getLsbD_cast, BitVec.getLsbD_append, hi,
    decide_true, Bool.true_and]
  fin_cases j <;> interval_cases i <;> simp

theorem unpack_byte_first (w0 w1 : TransportWord) (j : Fin 8) :
    (unpack w0 w1).byte (halfByte 0 j) = wordByte w0 j := by
  fin_cases j <;> rfl

theorem unpack_byte_second (w0 w1 : TransportWord) (j : Fin 8) :
    (unpack w0 w1).byte (halfByte 1 j) = wordByte w1 j := by
  fin_cases j <;> rfl

/-- Every byte is a byte of one of the half-frames. -/
theorem halfByte_surjective (k : Fin 16) : ∃ h j, halfByte h j = k := by
  revert k; decide

/-! ### The checksum -/

theorem nsum_toNat (b : Byte) : (nsum b).toNat = b.toNat % 16 + b.toNat / 16 := by
  have := b.isLt
  have h1 : b.toNat / 16 % 16 = b.toNat / 16 := Nat.mod_eq_of_lt (by omega)
  simp [nsum, Nat.shiftRight_eq_div_pow, h1]
  omega

/-- The accumulator, written out. -/
theorem Frame.sumNibbles_eq (fr : Frame) (h : Fin 2) : fr.sumNibbles h =
    nsum (fr.byte (halfByte h 0)) + nsum (fr.byte (halfByte h 1)) + nsum (fr.byte (halfByte h 2))
      + nsum (fr.byte (halfByte h 3)) + nsum (fr.byte (halfByte h 4)) + nsum (fr.byte (halfByte h 5))
      + nsum (fr.byte (halfByte h 6)) := by
  simp [Frame.sumNibbles, coveredBytes]

/-- A checksum depends on the covered bytes of its half-frame alone. -/
theorem Frame.csum_congr {fr fr' : Frame} {h : Fin 2}
    (hb : ∀ j : Fin 8, j ≠ 7 → fr.byte (halfByte h j) = fr'.byte (halfByte h j)) : fr.csum h = fr'.csum h := by
  simp only [Frame.csum, Frame.sumNibbles_eq]
  rw [hb 0 (by decide), hb 1 (by decide), hb 2 (by decide), hb 3 (by decide), hb 4 (by decide),
    hb 5 (by decide), hb 6 (by decide)]

/-! ### Frames given by their bits -/

/-- The bit view of a frame given by its bits is those bits (R42, R45). -/
theorem Frame.ofBits_bit (f : FrameBits) (n : Fin 128) : (Frame.ofBits f).bit n = f.getLsbD n.val := by
  obtain ⟨h, j, hk⟩ := halfByte_surjective (bitByte n)
  have hp : bitPosition n < 8 := Nat.mod_lt _ (by decide)
  have hn : n.val = 8 * (8 * h.val + j.val) + bitPosition n := by
    have := congrArg Fin.val hk
    simp only [halfByte, bitByte, bitPosition] at this ⊢
    omega
  have hj := j.isLt
  unfold Frame.bit
  rw [← hk, hn]
  match h with
  | 0 =>
    rw [Frame.ofBits, unpack_byte_first]
    simp [wordByte, bitsWord0, hp]
    intro hf; omega
  | 1 =>
    rw [Frame.ofBits, unpack_byte_second]
    have h1 : 8 * j.val + bitPosition n < 64 := by omega
    have h2 : 64 + (8 * j.val + bitPosition n) = 8 * (8 + j.val) + bitPosition n := by omega
    simp [wordByte, bitsWord1, hp, h1, h2]

end Sys2Proof.Machine
end

