-- ==== Sys2Proof/Laws/Frame.lean ====
section
/-! SUPPORT. The frame register through its views: what a field write and a bit write leave at every bit
address, and that the byte view and the word view are inverse. -/

namespace Sys2Proof.Machine

/-- A bit address is its byte and its place in the byte (R42). -/
theorem bitAddress_split (n : Fin 128) : n.val = 8 * (bitByte n).val + bitPosition n := by
  simp only [bitByte, bitPosition]; omega

theorem bitPosition_lt (n : Fin 128) : bitPosition n < 8 := Nat.mod_lt _ (by decide)

/-- A field read as a number: its byte shifted down and cut to the field's width (R121). -/
theorem Frame.readField_toNat (fr : Frame) (f : Field) :
    (fr.readField f).toNat = (fr.byte f.byte).toNat / 2 ^ f.lo % 2 ^ f.width := by
  have h := f.lo_add_width_le
  have h1 : 2 ^ f.width ≤ 2 ^ 8 := Nat.pow_le_pow_right (by decide) (by omega)
  have h2 : (fr.byte f.byte).toNat / 2 ^ f.lo % 2 ^ f.width < 2 ^ f.width := Nat.mod_lt _ (by positivity)
  simp only [Frame.readField, BitVec.toNat_setWidth, BitVec.extractLsb'_toNat, Nat.shiftRight_eq_div_pow]
  omega

/-- A field write, bit by bit: the field's bits come from the value, every other bit of the frame stays. -/
theorem Frame.writeField_bit (fr : Frame) (f : Field) (v : Byte) (n : Fin 128) :
    (fr.writeField f v).bit n =
      if 8 * f.byte.val + f.lo ≤ n.val ∧ n.val < 8 * f.byte.val + f.lo + f.width
      then v.getLsbD (n.val - (8 * f.byte.val + f.lo)) else fr.bit n := by
  have hw := f.lo_add_width_le
  have hp := bitPosition_lt n
  have hn := bitAddress_split n
  unfold Frame.bit
  by_cases hb : f.byte = bitByte n
  · rw [← hb, Frame.writeField_getLsbD _ _ _ _ hp, hb]
    have e : (f.lo ≤ bitPosition n ∧ bitPosition n < f.lo + f.width) ↔
        (8 * (bitByte n).val + f.lo ≤ n.val ∧ n.val < 8 * (bitByte n).val + f.lo + f.width) := by omega
    simp only [e]
    split
    · congr 1; omega
    · rfl
  · rw [Frame.writeField_byte_ne _ _ _ _ hb]
    have : ¬ (8 * f.byte.val + f.lo ≤ n.val ∧ n.val < 8 * f.byte.val + f.lo + f.width) := by
      intro h; apply hb; ext; omega
    simp [this]

/-- A bit write, bit by bit. -/
theorem Frame.setBit_bit (fr : Frame) (m n : Fin 128) (v : Bool) :
    (fr.setBit m v).bit n = if n.val = m.val then v else fr.bit n := by
  have hp := bitPosition_lt n
  have hn := bitAddress_split n
  have hm := bitAddress_split m
  have hp' := bitPosition_lt m
  unfold Frame.bit
  by_cases hb : bitByte m = bitByte n
  · rw [← hb, Frame.setBit_getLsbD _ _ _ _ hp]
    rw [hb] at hm
    have e : (bitPosition n = bitPosition m) ↔ n.val = m.val := by omega
    simp only [e]
  · rw [Frame.setBit_byte_ne _ _ _ _ hb]
    have : ¬ n.val = m.val := by intro h; apply hb; rw [Fin.ext h]
    simp [this]

/-- Bit `i` of a field read is the frame's bit at the field's bit address plus `i`. -/
theorem Frame.readField_bit (fr : Frame) (f : Field) (i : Nat) (hi : i < f.width) (n : Fin 128)
    (hn : n.val = 8 * f.byte.val + f.lo + i) : (fr.readField f).getLsbD i = fr.bit n := by
  have hw := f.lo_add_width_le
  have hb : bitByte n = f.byte := by ext; simp only [bitByte]; omega
  have hp : bitPosition n = f.lo + i := by simp only [bitPosition]; omega
  rw [Frame.readField_getLsbD, Frame.bit, hb, hp]
  simp [hi]

/-- A field read depends on the field's byte alone. -/
theorem Frame.readField_congr {fr fr' : Frame} {f : Field} (h : fr.byte f.byte = fr'.byte f.byte) :
    fr.readField f = fr'.readField f := by
  simp only [Frame.readField, h]

/-- Two different fields share no bit (R120). -/
theorem Field.disjoint {f g : Field} (h : f ≠ g) :
    f.byte ≠ g.byte ∨ f.lo + f.width ≤ g.lo ∨ g.lo + g.width ≤ f.lo := by
  cases f <;> cases g <;> first | exact absurd rfl h | decide

/-! ### The word view -/

/-- A transport word is determined by its bytes. -/
theorem TransportWord.ext_wordByte {w w' : TransportWord} (h : ∀ j, wordByte w j = wordByte w' j) : w = w' := by
  apply BitVec.eq_of_getLsbD_eq
  intro i hi
  have hb := congrArg (fun b => b.getLsbD (i % 8)) (h ⟨i / 8, by omega⟩)
  have e : 8 * (i / 8) + i % 8 = i := by omega
  simpa [wordByte, Nat.mod_lt, e] using hb

/-- Unpacking the packed words gives the frame (R47). -/
theorem unpack_word (fr : Frame) : unpack (fr.word 0) (fr.word 1) = fr := by
  apply Frame.ext_byte
  intro k
  obtain ⟨h, j, rfl⟩ := halfByte_surjective k
  match h with
  | 0 => rw [unpack_byte_first, wordByte_word]
  | 1 => rw [unpack_byte_second, wordByte_word]

/-- Packing the unpacked frame gives the words (R47). -/
theorem word_unpack (w0 w1 : TransportWord) : (unpack w0 w1).word 0 = w0 ∧ (unpack w0 w1).word 1 = w1 := by
  constructor <;> apply TransportWord.ext_wordByte <;> intro j <;> rw [wordByte_word]
  · rw [unpack_byte_first]
  · rw [unpack_byte_second]

/-! ### The operands -/

/-- Every identifier up to 14 names a field (R92). -/
theorem fieldId_some {a : Byte} (h : a.toNat ≤ 14) : ∃ f, fieldId a = some f := by
  have key : ∀ a : BitVec 8, a.toNat ≤ 14 → (fieldId a).isSome = true := by decide
  exact Option.isSome_iff_exists.mp (key a h)

/-- No identifier above 14 names a field (R92). -/
theorem fieldId_none {a : Byte} (h : 15 ≤ a.toNat) : fieldId a = none := by
  have key : ∀ a : BitVec 8, 15 ≤ a.toNat → fieldId a = none := by decide
  exact key a h

end Sys2Proof.Machine
end

