-- ==== Sys2Proof/Laws/Checksum.lean ====
section
/-! SUPPORT. The block's checksum is the sum of the spec's words, and what storing both sums leaves. -/

namespace Sys2Proof.Machine

/-- `nsum` of a byte as a number (R140). -/
def nibbles (b : Byte) : Nat := b.toNat % 16 + b.toNat / 16

theorem nibbles_le (b : Byte) : nibbles b ≤ 30 := by have := b.isLt; unfold nibbles; omega

theorem Frame.toList_eq (fr : Frame) : fr.toList =
    [fr.byte 0, fr.byte 1, fr.byte 2, fr.byte 3, fr.byte 4, fr.byte 5, fr.byte 6, fr.byte 7,
     fr.byte 8, fr.byte 9, fr.byte 10, fr.byte 11, fr.byte 12, fr.byte 13, fr.byte 14, fr.byte 15] := by
  apply List.ext_getElem
  · simp
  · intro i h1 h2
    simp at h2
    interval_cases i <;> simp [Frame.byte, Vector.get_eq_getElem]

/-- The total over half-frame 0. -/
theorem Frame.nibbleTotal_zero (fr : Frame) : fr.nibbleTotal 0 =
    nibbles (fr.byte 0) + nibbles (fr.byte 1) + nibbles (fr.byte 2) + nibbles (fr.byte 3) + nibbles (fr.byte 4)
      + nibbles (fr.byte 5) + nibbles (fr.byte 6) := by
  simp [Frame.nibbleTotal, Frame.toList_eq, nibbles]; omega

/-- The total over half-frame 1. -/
theorem Frame.nibbleTotal_one (fr : Frame) : fr.nibbleTotal 1 =
    nibbles (fr.byte 8) + nibbles (fr.byte 9) + nibbles (fr.byte 10) + nibbles (fr.byte 11) + nibbles (fr.byte 12)
      + nibbles (fr.byte 13) + nibbles (fr.byte 14) := by
  simp [Frame.nibbleTotal, Frame.toList_eq, nibbles]; omega

/-- `csum(h)` is the total modulo 16: the 8-bit accumulator never overflows (R140, R141). -/
theorem Frame.csum_toNat (fr : Frame) (h : Fin 2) : (fr.csum h).toNat = fr.nibbleTotal h % 16 := by
  have hn : ∀ b : Byte, (nsum b).toNat = nibbles b := nsum_toNat
  match h with
  | 0 =>
    rw [Frame.nibbleTotal_zero, Frame.csum, Frame.sumNibbles_eq]
    simp only [BitVec.extractLsb'_toNat, BitVec.toNat_add, hn]
    simp [halfByte]
  | 1 =>
    rw [Frame.nibbleTotal_one, Frame.csum, Frame.sumNibbles_eq]
    simp only [BitVec.extractLsb'_toNat, BitVec.toNat_add, hn]
    simp [halfByte]

/-- A match bit says that the stored nibble is the sum (R145). -/
theorem Frame.sumOk_iff (fr : Frame) (h : Fin 2) : fr.sumOk h = true ↔ fr.SumMatches h := by
  unfold Frame.sumOk Frame.SumMatches
  rw [beq_iff_eq, ← BitVec.toNat_inj, Frame.readField_toNat, BitVec.toNat_setWidth, Frame.csum_toNat]
  have h1 := (fr.byte (sumByte h)).isLt
  match h with
  | 0 => simp [sumField, Field.byte, Field.lo, Field.width, sumByte] at h1 ⊢; omega
  | 1 => simp [sumField, Field.byte, Field.lo, Field.width, sumByte] at h1 ⊢; omega

/-- The validator accepts exactly the checksum-valid frames (R145). -/
theorem Frame.checksumValid_iff (fr : Frame) : fr.checksumValid = true ↔ fr.Valid := by
  simp only [Frame.checksumValid, Bool.and_eq_true, Frame.sumOk_iff]

/-! ### Storing both sums (R143) -/

theorem Frame.applyChecksums_byte (fr : Frame) (k : Fin 16) (h7 : k ≠ 7) (h15 : k ≠ 15) :
    fr.applyChecksums.byte k = fr.byte k := by
  unfold Frame.applyChecksums
  rw [Frame.writeField_byte_ne _ _ _ _ (fun h => h15 h.symm), Frame.writeField_byte_ne _ _ _ _ (fun h => h7 h.symm)]

/-- A high nibble written over a byte, its low nibble kept. -/
theorem highNibble_write (c : BitVec 4) (b : Byte) :
    ((b &&& ~~~(0xF#8 <<< 4)) ||| ((c.setWidth 8 &&& 0xF#8) <<< 4)).toNat = 16 * c.toNat + b.toNat % 16 := by
  have key : ∀ (c : BitVec 4) (b : BitVec 8),
      ((b &&& ~~~(0xF#8 <<< 4)) ||| ((c.setWidth 8 &&& 0xF#8) <<< 4)).toNat = 16 * c.toNat + b.toNat % 16 := by
    decide +kernel
  exact key c b

theorem Frame.applyChecksums_byte_seven (fr : Frame) :
    (fr.applyChecksums.byte 7).toNat = 16 * (fr.nibbleTotal 0 % 16) + (fr.byte 7).toNat % 16 := by
  rw [← Frame.csum_toNat]
  unfold Frame.applyChecksums
  rw [Frame.writeField_byte_ne _ _ _ _ (by decide)]
  simp only [Frame.writeField, Frame.byte_setByte, Field.byte, if_true]
  exact highNibble_write _ _

theorem Frame.applyChecksums_byte_fifteen (fr : Frame) :
    (fr.applyChecksums.byte 15).toNat = 16 * (fr.nibbleTotal 1 % 16) + (fr.byte 15).toNat % 16 := by
  have h : (fr.writeField .sum1 ((fr.csum 0).setWidth 8)).byte 15 = fr.byte 15 :=
    Frame.writeField_byte_ne _ _ _ _ (by decide)
  rw [← Frame.csum_toNat]
  unfold Frame.applyChecksums
  generalize fr.writeField .sum1 ((fr.csum 0).setWidth 8) = fr' at *
  simp only [Frame.writeField, Frame.byte_setByte, Field.byte, if_true, h]
  exact highNibble_write _ _

/-- Storing the sums leaves every covered byte, so the sums themselves. -/
theorem Frame.applyChecksums_nibbleTotal (fr : Frame) (h : Fin 2) :
    fr.applyChecksums.nibbleTotal h = fr.nibbleTotal h := by
  match h with
  | 0 => simp [Frame.nibbleTotal_zero, Frame.applyChecksums_byte]
  | 1 => simp [Frame.nibbleTotal_one, Frame.applyChecksums_byte]

/-- What the sums are stored into is checksum-valid (R146). -/
theorem Frame.applyChecksums_valid (fr : Frame) : fr.applyChecksums.Valid := by
  refine ⟨?_, ?_⟩ <;> unfold Frame.SumMatches <;> rw [Frame.applyChecksums_nibbleTotal]
  · have := fr.applyChecksums_byte_seven
    simp [sumByte]; omega
  · have := fr.applyChecksums_byte_fifteen
    simp [sumByte]; omega

end Sys2Proof.Machine
end

