-- ==== Sys2Proof/Laws/Decode.lean ====
section
/-! SUPPORT. The decoder against the encoder: the fields of a command word, the selectors of a frame class,
and the letters of the encoded pattern. -/

namespace Sys2Proof

theorem cwOp_append (op : BitVec 4) (a d : Byte) : cwOp ((op ++ a ++ d).cast rfl) = op := by
  apply BitVec.eq_of_getLsbD_eq; intro i hi
  simp only [cwOp, BitVec.getLsbD_extractLsb', BitVec.getLsbD_cast, BitVec.getLsbD_append]
  interval_cases i <;> simp

theorem cwA_append (op : BitVec 4) (a d : Byte) : cwA ((op ++ a ++ d).cast rfl) = a := by
  apply BitVec.eq_of_getLsbD_eq; intro i hi
  simp only [cwA, BitVec.getLsbD_extractLsb', BitVec.getLsbD_cast, BitVec.getLsbD_append]
  interval_cases i <;> simp

theorem cwD_append (op : BitVec 4) (a d : Byte) : cwD ((op ++ a ++ d).cast rfl) = d := by
  apply BitVec.eq_of_getLsbD_eq; intro i hi
  simp only [cwD, BitVec.getLsbD_extractLsb', BitVec.getLsbD_cast, BitVec.getLsbD_append]
  interval_cases i <;> simp

/-- A command word is its three fields (R90). -/
theorem append_command (w : CommandWord) : ((cwOp w ++ cwA w ++ cwD w).cast rfl : CommandWord) = w := by
  apply BitVec.eq_of_getLsbD_eq; intro i hi
  simp only [cwOp, cwA, cwD, BitVec.getLsbD_extractLsb', BitVec.getLsbD_cast, BitVec.getLsbD_append]
  interval_cases i <;> simp

theorem framePower_classBits (p : BitVec 1) (m : BitVec 3) (r : BitVec 124) :
    framePower (classBits p m r) = p := by
  apply BitVec.eq_of_getLsbD_eq; intro i hi
  simp only [framePower, classBits, BitVec.getLsbD_extractLsb', BitVec.getLsbD_cast, BitVec.getLsbD_append]
  interval_cases i; simp

theorem frameMode_classBits (p : BitVec 1) (m : BitVec 3) (r : BitVec 124) : frameMode (classBits p m r) = m := by
  apply BitVec.eq_of_getLsbD_eq; intro i hi
  simp only [frameMode, classBits, BitVec.getLsbD_extractLsb', BitVec.getLsbD_cast, BitVec.getLsbD_append]
  interval_cases i <;> simp

theorem frameRest_classBits (p : BitVec 1) (m : BitVec 3) (r : BitVec 124) : frameRest (classBits p m r) = r := by
  apply BitVec.eq_of_getLsbD_eq; intro i hi
  simp only [frameRest, classBits, BitVec.getLsbD_extractLsb', BitVec.getLsbD_cast, BitVec.getLsbD_append]
  interval_cases i <;> simp

/-- A frame is its selectors and the rest (R93). -/
theorem classBits_parts (f : FrameBits) : classBits (framePower f) (frameMode f) (frameRest f) = f := by
  apply BitVec.eq_of_getLsbD_eq; intro i hi
  simp only [frameRest, frameMode, framePower, classBits, BitVec.getLsbD_extractLsb', BitVec.getLsbD_cast,
    BitVec.getLsbD_append]
  by_cases h1 : i < 4
  · interval_cases i <;> simp
  · have h3 : ¬ i < 3 := by omega
    have h4 : ¬ i - 3 < 1 := by omega
    have h5 : i - 3 - 1 < 124 := by omega
    simp [h3, h4, h5]; congr 1; omega

/-- The class of a frame given by its parts (R93). -/
theorem decodeReceived_classBits (p : BitVec 1) (m : BitVec 3) (r : BitVec 124) :
    decodeReceived (classBits p m r) =
      match p.toFin, m.toFin with
      | 0, _ => .acOff m r
      | 1, 0 => .acAuto r
      | 1, 1 => .acCool r
      | 1, 2 => .acDry r
      | 1, 3 => .acFan r
      | 1, 4 => .acHeat r
      | 1, 5 => .acRsv5 r
      | 1, 6 => .acRsv6 r
      | 1, 7 => .acRsv7 r := by
  unfold decodeReceived
  rw [framePower_classBits, frameMode_classBits, frameRest_classBits]
  rcases p with ⟨p⟩; rcases m with ⟨m⟩
  fin_cases p
  · simp
  · fin_cases m <;> rfl

/-- The letters of a pattern frame are the ones it was written from (R83). -/
theorem encodedLetters_encodedBits (m : BitVec 3) (p : BitVec 1) (f : BitVec 2) (t : BitVec 4) (l : BitVec 1)
    (v s1 s2 : BitVec 4) :
    encodedLetters (encodedBits m p f t l v s1 s2) = .cfEncoded m p f t l v s1 s2 := by
  unfold encodedLetters
  congr 1 <;> apply BitVec.eq_of_getLsbD_eq <;> intro i hi <;>
  simp only [frameMode, framePower, encodedBits, encodedBlock, BitVec.getLsbD_extractLsb', BitVec.getLsbD_cast,
    BitVec.getLsbD_append] <;>
  interval_cases i <;> simp

end Sys2Proof
end

