-- ==== Sys2Proof/Laws/Exec.lean ====
section
/-! SUPPORT. What any instruction can do, said once: a next state differs in the frame register and by one
response, and in nothing else. -/

namespace Sys2Proof.Machine

/-- Every next state is the old state with a frame register loaded and one response given. -/
theorem exec_inv {i : Instr} {s t : State} (h : exec i s = .next t) : ∃ fr r, t = (s.setFr fr).respond r := by
  cases i <;> simp only [exec, execFclr, execFrdb, execFwrb, execFrdf, execFwrf, execFrdbit, execFwrbit,
    execFmirror, execFpack, execFunpack, execCsum, execCsapply, execCschk, execEncode, execDecode, execAdjust,
    execAcOff, execAcAuto, execAcCool, execAcDry, execAcFan, execAcHeat, execAcRsv5, execAcRsv6, execAcRsv7,
    execCfEncoded, receive_eq, raise, complete] at h <;>
  (repeat' split at h) <;> (first | (cases h; exact ⟨_, _, rfl⟩) | (exact absurd h (by simp)))

theorem State.lastResponse_respond (s : State) (r : Response) : (s.respond r).lastResponse = some r := by
  simp [State.lastResponse]

/-- The response a reception gives: the update when the checksums match, the failure when they do not. -/
def receptionResponse (fr : Frame) (mode : Option AbsMode) : Response :=
  if fr.checksumValid then { Response.ok 0 with upd := some (updateOf mode fr) }
  else Failure.unhandledCsum.response

/-- A reception always loads its frame and answers. -/
theorem receive_next (fr : Frame) (mode : Option AbsMode) (s : State) :
    receive fr mode s = .next ((s.setFr fr).respond (receptionResponse fr mode)) := receive_eq fr mode s

/-- `DECODE` of at least two words is a reception of the unpacked frame (R192). -/
theorem exec_decode (a d : Byte) (s : State) (h : 2 ≤ s.rx.n.toNat) :
    exec (.decode a d) s =
      receive (unpack s.rx.w0 s.rx.w1) (decodedMode (unpack s.rx.w0 s.rx.w1)) s := by
  have : ¬ s.rx.n < Config.minRxWords := by simp [BitVec.lt_def, Config.minRxWords]; omega
  simp only [exec, execDecode, this, if_false]

/-- `DECODE` of fewer than two words fails (R191). -/
theorem exec_decode_short (a d : Byte) (s : State) (h : s.rx.n.toNat < 2) :
    exec (.decode a d) s = raise .unhandledShort s := by
  have : s.rx.n < Config.minRxWords := by simp [BitVec.lt_def, Config.minRxWords]; omega
  simp only [exec, execDecode, this, if_true]

end Sys2Proof.Machine
end

