-- ==== Sys2Proof/Laws/Decoder.lean ====
section
/-! SUPPORT. What the decoder delivers, read off bytes 0 and 1 of half-frame 0. -/

namespace Sys2Proof.Machine

/-- The mode code delivered for byte 0 of a frame; `none` when no mode is written (R196 to R198). -/
def modeCodeOf (b : Byte) : Option (BitVec 3) :=
  (if (b.extractLsb' 3 1).setWidth 8 = 0#8 then some AbsMode.off
  else
    match DevMode.ofCode ((b.extractLsb' 0 3).setWidth 8) with
    | some m => some (absMode m)
    | none => none).map AbsMode.code

theorem decodedMode_code (fr : Frame) : (decodedMode fr).map AbsMode.code = modeCodeOf (fr.byte 0) := rfl

theorem decodedMode_isSome (fr : Frame) : (decodedMode fr).isSome = (modeCodeOf (fr.byte 0)).isSome := by
  rw [← decodedMode_code]; simp

/-- The mode code by cases on `Power` (bit 3) and `Mode` (bits 2 to 0). -/
theorem modeCodeOf_cases (b : Byte) :
    (b.getLsbD 3 = false → modeCodeOf b = some 0)
    ∧ (b.getLsbD 3 = true → b.toNat % 8 = 0 → modeCodeOf b = some 5)
    ∧ (b.getLsbD 3 = true → 1 ≤ b.toNat % 8 → b.toNat % 8 ≤ 4 → modeCodeOf b = some (b.extractLsb' 0 3))
    ∧ (b.getLsbD 3 = true → 5 ≤ b.toNat % 8 → modeCodeOf b = none) := by
  have key : ∀ b : BitVec 8, (b.getLsbD 3 = false → modeCodeOf b = some 0)
      ∧ (b.getLsbD 3 = true → b.toNat % 8 = 0 → modeCodeOf b = some 5)
      ∧ (b.getLsbD 3 = true → 1 ≤ b.toNat % 8 → b.toNat % 8 ≤ 4 → modeCodeOf b = some (b.extractLsb' 0 3))
      ∧ (b.getLsbD 3 = true → 5 ≤ b.toNat % 8 → modeCodeOf b = none) := by decide +kernel
  exact key b

/-- The temperature delivered (R199). -/
theorem decodedTemp_toNat (fr : Frame) : (decodedTemp fr).toNat = (fr.byte 1).toNat % 16 + 16 := by
  unfold decodedTemp
  have h := fr.readField_toNat .temp
  simp only [Field.byte, Field.lo, Field.width] at h
  rw [BitVec.toNat_add, h]
  simp [Config.tempOffset]; omega

/-- The fan code delivered (R200). -/
theorem decodedFan_code (fr : Frame) : (decodedFan fr).code = (fr.byte 0).extractLsb' 4 2 := by
  have key : ∀ b : BitVec 8,
      (absFan (DevFan.ofCode ((b.extractLsb' 4 2).setWidth 8))).code = b.extractLsb' 4 2 := by decide +kernel
  exact key _

/-- Bytes of a frame given by its bits (R42). -/
theorem Frame.ofBits_byte (f : FrameBits) (k : Fin 16) :
    (Frame.ofBits f).byte k = f.extractLsb' (8 * k.val) 8 := by
  apply BitVec.eq_of_getLsbD_eq; intro i hi
  have h := Frame.ofBits_bit f ⟨8 * k.val + i, by omega⟩
  have h2 : (8 * k.val + i) % 8 = i := by omega
  have h3 : (⟨(8 * k.val + i) / 8, by omega⟩ : Fin 16) = k := by ext; simp; omega
  simp only [Frame.bit, bitByte, bitPosition, h2, h3] at h
  rw [h]; simp [hi]

end Sys2Proof.Machine
end

