-- ==== Sys2Proof/Laws/Encoder.lean ====
section
/-! SUPPORT. What the encoder builds, byte by byte, and when it runs. -/

namespace Sys2Proof.Machine

/-- Byte 0 of an encoded frame: `Mode`, `Power` and `BasicFan` (R177). -/
def encodedByte0 (mode : AbsMode) (fan : Option AbsFan) : Byte :=
  (devMode mode).code + (if mode = .off then 0 else 8) + 16 * fanFieldValue fan

/-- Byte 2 of an encoded frame: `Light` (R177). -/
def encodedByte2 (light : Bool) : Byte := if light then 32 else 0

/-- Byte 4 of an encoded frame: `SwingV` (R167). -/
def encodedByte4 (wired : Bool) (swing : AbsSwing) : Byte := if wired then (devSwing swing).code else 0

theorem fan_cases (f : Option AbsFan) :
    f = none ∨ f = some .auto ∨ f = some .low ∨ f = some .medium ∨ f = some .high := by
  rcases f with _ | f
  · simp
  · cases f <;> simp

theorem encodedByte0_toNat (m : AbsMode) (f : Option AbsFan) : (encodedByte0 m f).toNat =
    (devMode m).code.toNat + (if m = .off then 0 else 8) + 16 * (fanFieldValue f).toNat := by
  rcases fan_cases f with rfl | rfl | rfl | rfl | rfl <;> cases m <;> decide

/-- The offset temperature fits its field inside the contract (R164). -/
theorem temp_field_fits (t : Byte) (h1 : 16 ≤ t.toNat) (h2 : t.toNat ≤ 30) :
    (t - 16#8 &&& Field.temp.mask) <<< Field.temp.lo = t - 16#8 := by
  have key : ∀ t : BitVec 8, 16 ≤ t.toNat → t.toNat ≤ 30 →
      (t - 16#8 &&& Field.temp.mask) <<< Field.temp.lo = t - 16#8 := by decide +kernel
  exact key t h1 h2

/-- The frame after steps 1 to 6 of R160: the fields of half-frame 0. -/
def encodedFields (wired : Bool) (mode : AbsMode) (temp : Byte) (fan : Option AbsFan) (swing : AbsSwing)
    (light : Bool) : Frame :=
  let f1 := Frame.zero.writeField .power (if mode = .off then 0 else 1)
  let f2 := f1.writeField .mode (devMode mode).code
  let f3 := f2.writeField .temp (temp - Config.tempOffset)
  let f4 := f3.writeField .basicFan (fanFieldValue fan)
  let f5 := f4.writeField .light ((BitVec.ofBool light).setWidth 8)
  if wired then f5.writeField .swingV (devSwing swing).code else f5

theorem encodedFields_byte (w : Bool) (m : AbsMode) (t : Byte) (f : Option AbsFan) (s : AbsSwing) (l : Bool)
    (h1 : 16 ≤ t.toNat) (h2 : t.toNat ≤ 30) (k : Fin 16) : (encodedFields w m t f s l).byte k =
      if k = 0 then encodedByte0 m f else if k = 1 then t - 16 else if k = 2 then encodedByte2 l
      else if k = 4 then encodedByte4 w s else 0 := by
  have ht := temp_field_fits t h1 h2
  unfold encodedFields Frame.writeField
  cases w <;> simp only [Frame.byte_setByte, Frame.byte_zero, Field.byte, if_true, if_false, Bool.false_eq_true] <;>
  fin_cases k <;> simp [-BitVec.toNat_ofNat] <;>
  first
    | exact ht
    | (rcases fan_cases f with rfl | rfl | rfl | rfl | rfl <;> cases m <;> decide +kernel)
    | (cases l <;> decide)
    | (cases s <;> decide)

/-- Every byte of an encoded frame but the two that hold the checksums (R177). -/
theorem encodeFrame_byte (w : Bool) (m : AbsMode) (t : Byte) (f : Option AbsFan) (s : AbsSwing) (l : Bool)
    (h1 : 16 ≤ t.toNat) (h2 : t.toNat ≤ 30) (k : Fin 16) (h7 : k ≠ 7) (h15 : k ≠ 15) :
    (encodeFrame w m t f s l).byte k =
      if k = 0 ∨ k = 8 then encodedByte0 m f else if k = 1 ∨ k = 9 then t - 16
      else if k = 2 ∨ k = 10 then encodedByte2 l else if k = 4 then encodedByte4 w s
      else if k = 3 then 0x50 else if k = 11 then 0x70 else 0 := by
  have h : encodeFrame w m t f s l =
      (((encodedFields w m t f s l).mirror.setByte 3 Config.mark1).setByte 11 Config.mark2).applyChecksums := rfl
  rw [h, Frame.applyChecksums_byte _ _ h7 h15]
  simp only [Frame.mirror, Frame.byte_setByte, encodedFields_byte w m t f s l h1 h2]
  fin_cases k <;> simp at h7 h15 ⊢

/-- The two bytes that hold the checksums of an encoded frame (R170). -/
theorem encodeFrame_sums (w : Bool) (m : AbsMode) (t : Byte) (f : Option AbsFan) (s : AbsSwing) (l : Bool)
    (h1 : 16 ≤ t.toNat) (h2 : t.toNat ≤ 30) :
    ((encodeFrame w m t f s l).byte 7).toNat = 16 * ((encodeFrame w m t f s l).nibbleTotal 0 % 16)
    ∧ ((encodeFrame w m t f s l).byte 15).toNat = 16 * ((encodeFrame w m t f s l).nibbleTotal 1 % 16) := by
  have h : encodeFrame w m t f s l =
      (((encodedFields w m t f s l).mirror.setByte 3 Config.mark1).setByte 11 Config.mark2).applyChecksums := rfl
  rw [h, Frame.applyChecksums_nibbleTotal, Frame.applyChecksums_nibbleTotal, Frame.applyChecksums_byte_seven,
    Frame.applyChecksums_byte_fifteen]
  simp [Frame.mirror, Frame.byte_setByte, encodedFields_byte w m t f s l h1 h2]

/-! ### The inputs -/

/-- A code up to 5 names the mode it is the code of (R84). -/
theorem AbsMode.ofCode_some {c : BitVec 3} (h : c.toNat ≤ 5) : ∃ m, AbsMode.ofCode c = some m ∧ m.code = c := by
  have key : ∀ c : BitVec 3, c.toNat ≤ 5 →
      (AbsMode.ofCode c).isSome = true ∧ ((AbsMode.ofCode c).getD .off).code = c := by decide
  obtain ⟨ha, hb⟩ := key c h
  cases hm : AbsMode.ofCode c with
  | none => rw [hm] at ha; cases ha
  | some m => rw [hm] at hb; exact ⟨m, rfl, hb⟩

/-- The codes 6 and 7 name no mode (R84). -/
theorem AbsMode.ofCode_none {c : BitVec 3} (h : 6 ≤ c.toNat) : AbsMode.ofCode c = none := by
  have key : ∀ c : BitVec 3, 6 ≤ c.toNat → AbsMode.ofCode c = none := by decide
  exact key c h

theorem temperatureInContract_iff (t : Byte) :
    temperatureInContract t = true ↔ 16 ≤ t.toNat ∧ t.toNat ≤ 30 := by
  simp [temperatureInContract, BitVec.le_def]

/-- Inside its contract `ENCODE` completes with the frame of its inputs (R160, R172). -/
theorem exec_encode (a d : Byte) (s : State) (h : s.acs.InEncodeContract) :
    ∃ m fr, AbsMode.ofCode s.acs.mode = some m ∧ m.code = s.acs.mode
      ∧ fr = encodeFrame false m s.acs.temp s.acs.fanMode (AbsSwing.ofCode s.acs.swing) s.acs.light
      ∧ exec (.encode a d) s = complete fr
          { Response.ok 0 with tx := some { valid := true, w0 := fr.word 0, w1 := fr.word 1 } } s := by
  obtain ⟨hm, ht⟩ := h
  obtain ⟨m, h1, h2⟩ := AbsMode.ofCode_some hm
  refine ⟨m, _, h1, h2, rfl, ?_⟩
  simp only [exec, execEncode, h1, (temperatureInContract_iff _).2 ht, if_true, Config.swingVWired]

/-- With a mode code that names a mode, `ADJUST` completes with the adjusted values (R180). -/
theorem exec_adjust (a d : Byte) (s : State) (m : AbsMode) (h : AbsMode.ofCode s.acs.mode = some m) :
    exec (.adjust a d) s = complete s.fr
      { Response.ok 0 with
        adj := some { swing := (adjustSwing m (AbsSwing.ofCode s.acs.swing)).code
                      temp := adjustTemp m s.acs.temp } } s := by
  simp only [exec, execAdjust, h]

end Sys2Proof.Machine
end

