-- ==== Sys2Proof/Laws/PerInstr.lean ====
section
/-! SUPPORT. One family of statements per instruction: the bits that present an instruction fit its row of
spec/opcode_table.json. -/

namespace Sys2Proof.Laws.TableRow

/-- The fixed bits of a row: `w &&& mask = pattern`. -/
structure Row where
  pattern : Nat
  mask : Nat

/-- The row of each instruction as spec/opcode_table.json has it: match and mask, and for `CF.ENCODED` the
fixed bits of its pattern of 128 bits. -/
def row : Instr → Row
  | .fclr _ _ => { pattern := 0x00000, mask := 0xF0000 }
  | .frdb _ _ => { pattern := 0x10000, mask := 0xF0000 }
  | .fwrb _ _ => { pattern := 0x20000, mask := 0xF0000 }
  | .frdf _ _ => { pattern := 0x30000, mask := 0xF0000 }
  | .fwrf _ _ => { pattern := 0x40000, mask := 0xF0000 }
  | .frdbit _ _ => { pattern := 0x50000, mask := 0xF0000 }
  | .fwrbit _ _ => { pattern := 0x60000, mask := 0xF0000 }
  | .fmirror _ _ => { pattern := 0x70000, mask := 0xF0000 }
  | .fpack _ _ => { pattern := 0x80000, mask := 0xF0000 }
  | .funpack _ _ => { pattern := 0x90000, mask := 0xF0000 }
  | .csum _ _ => { pattern := 0xA0000, mask := 0xF0000 }
  | .csapply _ _ => { pattern := 0xB0000, mask := 0xF0000 }
  | .cschk _ _ => { pattern := 0xC0000, mask := 0xF0000 }
  | .encode _ _ => { pattern := 0xD0000, mask := 0xF0000 }
  | .decode _ _ => { pattern := 0xE0000, mask := 0xF0000 }
  | .adjust _ _ => { pattern := 0xF0000, mask := 0xF0000 }
  | .acOff _ _ => { pattern := 0x0, mask := 0x8 }
  | .acAuto _ => { pattern := 0x8, mask := 0xF }
  | .acCool _ => { pattern := 0x9, mask := 0xF }
  | .acDry _ => { pattern := 0xA, mask := 0xF }
  | .acFan _ => { pattern := 0xB, mask := 0xF }
  | .acHeat _ => { pattern := 0xC, mask := 0xF }
  | .acRsv5 _ => { pattern := 0xD, mask := 0xF }
  | .acRsv6 _ => { pattern := 0xE, mask := 0xF }
  | .acRsv7 _ => { pattern := 0xF, mask := 0xF }
  | .cfEncoded _ _ _ _ _ _ _ _ => { pattern := 0x700000000000000050000000, mask := 0xfffffffffdff0c00ffffff0ffdff0c0 }

/-- The bits that present an instruction have the fixed bits of its row. -/
def Statement (i : Instr) : Prop :=
  match encode i with
  | .command w => w &&& BitVec.ofNat 20 (row i).mask = BitVec.ofNat 20 (row i).pattern
  | .received f => f &&& BitVec.ofNat 128 (row i).mask = BitVec.ofNat 128 (row i).pattern
  | .encoded f => f &&& BitVec.ofNat 128 (row i).mask = BitVec.ofNat 128 (row i).pattern

/-- The fixed bits of a command word are its operation select (R91). -/
theorem command_fits (op : BitVec 4) (a d : Byte) :
    ((op ++ a ++ d).cast rfl : CommandWord) &&& 0xF0000#20 = op.setWidth 20 <<< 16 := by
  apply BitVec.eq_of_getLsbD_eq
  intro i hi
  simp only [BitVec.getLsbD_and, BitVec.getLsbD_cast, BitVec.getLsbD_append]
  interval_cases i <;> simp

/-- The fixed bit of `AC.OFF` is `Power` (R93). -/
theorem class_off_fits (m : BitVec 3) (r : BitVec 124) : classBits 0 m r &&& 0x8#128 = 0x0#128 := by
  apply BitVec.eq_of_getLsbD_eq
  intro i hi
  simp only [classBits, BitVec.getLsbD_and, BitVec.getLsbD_cast, BitVec.getLsbD_append]
  interval_cases i <;> simp

/-- The fixed bits of the other classes are `Power` and `Mode` (R93). -/
theorem class_on_fits (m : BitVec 3) (c : FrameBits) (h : 0x8#128 ||| m.setWidth 128 = c) (r : BitVec 124) :
    classBits 1 m r &&& 0xF#128 = c := by
  subst h
  apply BitVec.eq_of_getLsbD_eq
  intro i hi
  simp only [classBits, BitVec.getLsbD_and, BitVec.getLsbD_cast, BitVec.getLsbD_append]
  interval_cases i <;> simp

/-- The fixed bits of the encoded-frame pattern (R83). -/
theorem pattern_fits (m : BitVec 3) (p : BitVec 1) (f : BitVec 2) (t : BitVec 4) (l : BitVec 1)
    (v s1 s2 : BitVec 4) :
    encodedBits m p f t l v s1 s2 &&& 0xFFFFFFFFFDFF0C00FFFFFF0FFDFF0C0#128
      = 0x700000000000000050000000#128 := by
  apply BitVec.eq_of_getLsbD_eq
  intro i hi
  simp only [encodedBits, encodedBlock, BitVec.getLsbD_and, BitVec.getLsbD_cast, BitVec.getLsbD_append]
  interval_cases i <;> simp

theorem fclr (a d : Byte) : Statement (.fclr a d) := command_fits _ a d
theorem frdb (a d : Byte) : Statement (.frdb a d) := command_fits _ a d
theorem fwrb (a d : Byte) : Statement (.fwrb a d) := command_fits _ a d
theorem frdf (a d : Byte) : Statement (.frdf a d) := command_fits _ a d
theorem fwrf (a d : Byte) : Statement (.fwrf a d) := command_fits _ a d
theorem frdbit (a d : Byte) : Statement (.frdbit a d) := command_fits _ a d
theorem fwrbit (a d : Byte) : Statement (.fwrbit a d) := command_fits _ a d
theorem fmirror (a d : Byte) : Statement (.fmirror a d) := command_fits _ a d
theorem fpack (a d : Byte) : Statement (.fpack a d) := command_fits _ a d
theorem funpack (a d : Byte) : Statement (.funpack a d) := command_fits _ a d
theorem csum (a d : Byte) : Statement (.csum a d) := command_fits _ a d
theorem csapply (a d : Byte) : Statement (.csapply a d) := command_fits _ a d
theorem cschk (a d : Byte) : Statement (.cschk a d) := command_fits _ a d
theorem encode (a d : Byte) : Statement (.encode a d) := command_fits _ a d
theorem decode (a d : Byte) : Statement (.decode a d) := command_fits _ a d
theorem adjust (a d : Byte) : Statement (.adjust a d) := command_fits _ a d
theorem acOff (m : BitVec 3) (r : BitVec 124) : Statement (.acOff m r) := class_off_fits m r
theorem acAuto (r : BitVec 124) : Statement (.acAuto r) := class_on_fits 0 0x8#128 (by decide) r
theorem acCool (r : BitVec 124) : Statement (.acCool r) := class_on_fits 1 0x9#128 (by decide) r
theorem acDry (r : BitVec 124) : Statement (.acDry r) := class_on_fits 2 0xA#128 (by decide) r
theorem acFan (r : BitVec 124) : Statement (.acFan r) := class_on_fits 3 0xB#128 (by decide) r
theorem acHeat (r : BitVec 124) : Statement (.acHeat r) := class_on_fits 4 0xC#128 (by decide) r
theorem acRsv5 (r : BitVec 124) : Statement (.acRsv5 r) := class_on_fits 5 0xD#128 (by decide) r
theorem acRsv6 (r : BitVec 124) : Statement (.acRsv6 r) := class_on_fits 6 0xE#128 (by decide) r
theorem acRsv7 (r : BitVec 124) : Statement (.acRsv7 r) := class_on_fits 7 0xF#128 (by decide) r
theorem cfEncoded (m : BitVec 3) (p : BitVec 1) (f : BitVec 2) (t : BitVec 4) (l : BitVec 1) (v s1 s2 : BitVec 4) :
    Statement (.cfEncoded m p f t l v s1 s2) := pattern_fits m p f t l v s1 s2

end Sys2Proof.Laws.TableRow
end

