-- ==== Sys2Proof/Tests/Slice0.lean ====
section
/-! SUPPORT. Tests of the model. Words and results are the spec's own (R90 to R93, R83 for the encodings; the
vectors of 95_test_vectors.md, each named by its identifier), and a witness for the hypotheses of every statement. -/

namespace Sys2Proof.Tests

open Sys2Proof.Machine

/-! ### Helpers -/

/-- The machine after reset, its frame register holding `fr`. -/
def withFrame (fr : Frame) : State := State.reset.setFr fr

/-- The reference frame `REF` of 95_test_vectors.md. -/
def refFrame : Frame := #v[0x39, 0x08, 0x20, 0x50, 0, 0, 0, 0xB0, 0x39, 0x08, 0x20, 0x70, 0, 0, 0, 0xD0]

/-- Sixteen bytes `FF`. -/
def onesFrame : Frame := Vector.replicate 16 0xFF

/-- The machine after reset with a climate state on its port. -/
def withAcs (mode : BitVec 3) (temp : Byte) (fanSet : Bool) (fan : BitVec 2) (swing : BitVec 1) (light : Bool) :
    State :=
  { State.reset with
    acs := { mode := mode, temp := temp, fanSet := fanSet, fan := fan, swing := swing, light := light } }

/-- The machine with `REF` in its frame register and received words on its port. -/
def withRx (n : Byte) (w0 w1 : TransportWord) : State :=
  { withFrame refFrame with rx := { n := n, w0 := w0, w1 := w1 } }

/-- What a request answers, and the frame it leaves. -/
def run (i : Instr) (s : State) : Option (Response × Frame) :=
  match exec i s with
  | .next t => t.lastResponse.map fun r => (r, t.fr)
  | .fault _ => none
  | .refused _ => none

/-- A request by its command word. -/
def runWord (w : CommandWord) (s : State) : Option (Response × Frame) := run (decode (.command w)) s

def badOperand : Response := { status := .badOperand, q := 0, tx := none, upd := none, adj := none }

/-- A successful reception: mode code or none, temperature, fan code. -/
def delivered (mode : Option (BitVec 3)) (temp : Byte) (fan : BitVec 2) : Response :=
  { status := .ok, q := 0, tx := none, adj := none
    upd := some { valid := true, modeWe := mode.isSome, mode := mode, temp := some temp, fan := some fan } }

/-! ### Well-formedness -/

/-- With `SWINGV_WIRED` = 0 the letter `V` is 0000 (R83). -/
theorem test_wellFormed_refuses_swing : WellFormed (.cfEncoded 1 1 3 8 1 1 0xC 0xD) = false := by decide

/-- With `SWINGV_WIRED` = 1 the letter `V` is 000x (R83). -/
theorem test_wellFormed_refuses_wide_swing :
    (Instr.cfEncoded 1 1 3 8 1 2 0xD 0xD).wellFormedFor true = false := by decide

theorem test_wellFormed_admits_encoded : WellFormed (.cfEncoded 1 1 3 8 1 0 0xB 0xD) = true := by decide

/-! ### Decoding: one word for each row -/

theorem test_decode_fclr : decode (.command 0b00000001001000110100#20) = .fclr 0x12 0x34 := by decide
theorem test_decode_frdb : decode (.command 0b00010000111100000000#20) = .frdb 15 0 := by decide
theorem test_decode_fwrb : decode (.command 0b00100000000000111001#20) = .fwrb 0 0x39 := by decide
theorem test_decode_frdf : decode (.command 0b00110000111000000000#20) = .frdf 14 0 := by decide
theorem test_decode_fwrf : decode (.command 0b01000000101000000101#20) = .fwrf 10 5 := by decide
theorem test_decode_frdbit : decode (.command 0b01010111111100000000#20) = .frdbit 127 0 := by decide
theorem test_decode_fwrbit : decode (.command 0b01100001010111111110#20) = .fwrbit 21 0xFE := by decide
theorem test_decode_fmirror : decode (.command 0b01110000000000000000#20) = .fmirror 0 0 := by decide
theorem test_decode_fpack : decode (.command 0b10000000000000000001#20) = .fpack 0 1 := by decide
theorem test_decode_funpack : decode (.command 0b10010000000100000000#20) = .funpack 1 0 := by decide
theorem test_decode_csum : decode (.command 0b10100000000100000000#20) = .csum 1 0 := by decide
theorem test_decode_csapply : decode (.command 0b10111000000000000000#20) = .csapply 0x80 0 := by decide
theorem test_decode_cschk : decode (.command 0b11000000000010000000#20) = .cschk 0 0x80 := by decide
theorem test_decode_encode : decode (.command 0b11010000000000000000#20) = .encode 0 0 := by decide
theorem test_decode_decode : decode (.command 0b11100000000000000000#20) = .decode 0 0 := by decide
theorem test_decode_adjust : decode (.command 0b11111111111111111111#20) = .adjust 0xFF 0xFF := by decide

/-- D7: `Power` = 0 selects `AC.OFF` whatever `Mode` is (R93). -/
theorem test_decode_acOff : decode (.received 0xC000000070000E07A000000050000E07#128)
    = .acOff 7 0xC000000070000E07A000000050000E0#124 := by decide
theorem test_decode_acAuto : decode (.received 0xA0000000702009088000000050200908#128)
    = .acAuto 0xA000000070200908800000005020090#124 := by decide
theorem test_decode_acCool : decode (.received 0xD000000070200839B000000050200839#128)
    = .acCool 0xD000000070200839B00000005020083#124 := by decide
theorem test_decode_acDry : decode (.received 0x800000007000043A600000005000043A#128)
    = .acDry 0x800000007000043A600000005000043#124 := by decide
theorem test_decode_acFan : decode (.received 0xD00000007000092BB00000005000092B#128)
    = .acFan 0xD00000007000092BB00000005000092#124 := by decide
theorem test_decode_acHeat : decode (.received 0x2000000070000E1C0000000050000E1C#128)
    = .acHeat 0x2000000070000E1C0000000050000E1#124 := by decide
theorem test_decode_acRsv5 : decode (.received 0x3000000070000E1D1000000050000E1D#128)
    = .acRsv5 0x3000000070000E1D1000000050000E1#124 := by decide
theorem test_decode_acRsv6 : decode (.received 0x3000000070000E0E1000000050000E0E#128)
    = .acRsv6 0x3000000070000E0E1000000050000E0#124 := by decide
theorem test_decode_acRsv7 : decode (.received 0x7000000070000E3F5000000050000E3F#128)
    = .acRsv7 0x7000000070000E3F5000000050000E3#124 := by decide

/-- E9 as the pattern R83: mode 0, power 0, fan 2, temp 6, light 1, sums F and 1. -/
theorem test_decode_cfEncoded : decode (.encoded 0x1000000070200620F000000050200620#128)
    = .cfEncoded 0 0 2 6 1 0 0xF 0x1 := by decide

/-- A frame that is not of the pattern (D17: byte 7 = 0xB1) has only its class (log entry 7). -/
theorem test_decode_encoded_falls_back : decode (.encoded 0xDF00000070200839B100000050200839#128)
    = .acCool 0xDF00000070200839B10000005020083#124 := by decide

/-- A command word has no bit above bit 19 (R90, log entry 10). -/
theorem test_table_word_rejects_bit20 : decodeTableWord 24 0x110300 = none := by decide

/-! ### The frame model: vectors F2 to F27 -/

theorem test_fclr_F2 : runWord 0x01234 (withFrame refFrame) = some (.ok 0, Frame.zero) := by decide
theorem test_frdb_F4 : runWord 0x10F00 (withFrame refFrame) = some (.ok 0xD0, refFrame) := by decide
theorem test_frdb_F5 : runWord 0x11000 (withFrame refFrame) = some (badOperand, refFrame) := by decide
theorem test_fwrb_F6 : runWord 0x20039 State.reset
    = some (.ok 0, #v[0x39, 0, 0, 0, 0, 0, 0, 0, 0, 0, 0, 0, 0, 0, 0, 0]) := by decide
theorem test_fwrb_F7 : runWord 0x210AA State.reset = some (badOperand, Frame.zero) := by decide
theorem test_frdf_F9 : runWord 0x30E00 (withFrame refFrame) = some (.ok 13, refFrame) := by decide
theorem test_frdf_F10 : runWord 0x30F00 (withFrame refFrame) = some (badOperand, refFrame) := by decide
theorem test_fwrf_F13 : runWord 0x40500 (withFrame onesFrame)
    = some (.ok 0, onesFrame.setByte 1 0xF0) := by decide
theorem test_fwrf_F15 : runWord 0x40A05 (withFrame (Frame.zero.setByte 3 0x0F))
    = some (.ok 0, Frame.zero.setByte 3 0x5F) := by decide
theorem test_frdbit_F18 : runWord 0x57F00 (withFrame refFrame) = some (.ok 1, refFrame) := by decide
theorem test_frdbit_F19 : runWord 0x58000 (withFrame refFrame) = some (badOperand, refFrame) := by decide
theorem test_fwrbit_F20 : runWord 0x61501 State.reset = some (.ok 0, Frame.zero.setByte 2 0x20) := by decide
theorem test_fwrbit_F21 : runWord 0x615FE State.reset = some (.ok 0, Frame.zero) := by decide
theorem test_fmirror_F23 : runWord 0x70000
    (withFrame #v[0x39, 0x08, 0x20, 0, 0, 0, 0, 0, 0, 0, 0, 0, 0, 0, 0, 0])
    = some (.ok 0, #v[0x39, 0x08, 0x20, 0, 0, 0, 0, 0, 0x39, 0x08, 0x20, 0, 0, 0, 0, 0]) := by decide
theorem test_fmirror_F24 : runWord 0x70000
    (withFrame #v[0, 0, 0, 0, 0, 0, 0, 0, 0x11, 0x22, 0x33, 0, 0, 0, 0, 0]) = some (.ok 0, Frame.zero) := by decide
theorem test_fpack_F25 : runWord 0x80000 (withFrame refFrame)
    = some ({ status := .ok, q := 0, upd := none, adj := none
              tx := some { valid := false, w0 := 0xB000000050200839, w1 := 0xD000000070200839 } }, refFrame) := by
  decide
/-- F26 with F27's `rx_n` = 0. -/
theorem test_funpack_F26 : runWord 0x90000 (withRx 0 0x0706050403020100 0x0F0E0D0C0B0A0908)
    = some (.ok 0, #v[0, 1, 2, 3, 4, 5, 6, 7, 8, 9, 10, 11, 12, 13, 14, 15]) := by decide

/-- The widths of R73, added up by hand: 16 bits in bytes 0 to 2 and 20 in the five fields after them (log entry 19). -/
theorem test_field_widths :
    (((List.range 15).filterMap fun n => fieldId (BitVec.ofNat 8 n)).map Field.width).sum = 36 := by decide

/-! ### The checksum: vectors C2 to C13 -/

theorem test_csum_C2 : runWord 0xA0100 (withFrame refFrame) = some (.ok 13, refFrame) := by decide
theorem test_csum_C5 : runWord 0xA0000 (withFrame onesFrame) = some (.ok 2, onesFrame) := by decide
theorem test_csapply_C7 : runWord 0xB0000 (withFrame onesFrame)
    = some (.ok 0, (onesFrame.setByte 7 0x2F).setByte 15 0x2F) := by decide
theorem test_csapply_C8 : runWord 0xB0000
    (withFrame #v[0x39, 0x08, 0x20, 0x50, 0, 0, 0, 0, 0x39, 0x08, 0x20, 0x70, 0, 0, 0, 0])
    = some (.ok 0, refFrame) := by decide
theorem test_cschk_C10 : runWord 0xC0000 (withFrame (refFrame.setByte 1 0x09))
    = some (.ok 2, refFrame.setByte 1 0x09) := by decide
theorem test_cschk_C13 : runWord 0xC0000 (withFrame ((refFrame.setByte 7 0xB1).setByte 15 0xDF))
    = some (.ok 3, (refFrame.setByte 7 0xB1).setByte 15 0xDF) := by decide

/-! ### The encoder: vectors E3, E10, E5w, A1, A8 -/

theorem test_encode_E3 : runWord 0xD0000 (withAcs 4 30 true 1 0 false)
    = some ({ status := .ok, q := 0, upd := none, adj := none
              tx := some { valid := true, w0 := 0x0000000050000E1C, w1 := 0x2000000070000E1C } },
            #v[0x1C, 0x0E, 0, 0x50, 0, 0, 0, 0, 0x1C, 0x0E, 0, 0x70, 0, 0, 0, 0x20]) := by decide
/-- E10: the fan is unset, so `acs_fan` = 3 is not read. -/
theorem test_encode_E10 : runWord 0xD0000 (withAcs 1 16 false 3 0 false)
    = some ({ status := .ok, q := 0, upd := none, adj := none
              tx := some { valid := true, w0 := 0xE000000050000009, w1 := 0x0000000070000009 } },
            #v[0x09, 0, 0, 0x50, 0, 0, 0, 0xE0, 0x09, 0, 0, 0x70, 0, 0, 0, 0]) := by decide
/-- E5w: the other arm of R167. -/
theorem test_encodeFrame_E5w : encodeFrame true .fanOnly 25 (some .medium) .vertical false
    = #v[0x2B, 0x09, 0, 0x50, 0x01, 0, 0, 0xC0, 0x2B, 0x09, 0, 0x70, 0, 0, 0, 0xD0] := by decide
theorem test_adjust_A1 : runWord 0xF0000 (withAcs 0 22 false 0 1 false)
    = some ({ status := .ok, q := 0, tx := none, upd := none, adj := some { swing := 0, temp := 22 } },
            Frame.zero) := by decide
theorem test_adjust_A8 : runWord 0xF0000 (withAcs 3 200 false 0 0 false)
    = some ({ status := .ok, q := 0, tx := none, upd := none, adj := some { swing := 0, temp := 25 } },
            Frame.zero) := by decide

/-! ### The decoder: vectors D1 to D18 -/

/-- D11: one word, `FR` unchanged although the word is good. -/
theorem test_decode_D11 : runWord 0xE0000 { withRx 1 0xB000000050200839 0 with fr := onesFrame }
    = some ({ status := .unhandledShort, q := 0, tx := none, upd := some Upd.nothing, adj := none }, onesFrame) := by
  decide
/-- D13: `Sum2` alone rejects; the frame is loaded. -/
theorem test_decode_D13 : runWord 0xE0000 (withRx 2 0xB000000050200839 0xD000000070200939)
    = some ({ status := .unhandledCsum, q := 0, tx := none, upd := some Upd.nothing, adj := none },
            refFrame.setByte 9 0x09) := by decide
/-- D7: 30 degrees and AUTO are delivered with OFF. -/
theorem test_acOff_D7 : (run (decode (.received 0xC000000070000E07A000000050000E07#128)) State.reset).map (·.1)
    = some (delivered (some 0) 30 0) := by decide
theorem test_acAuto_D2 : (run (decode (.received 0xA0000000702009088000000050200908#128)) State.reset).map (·.1)
    = some (delivered (some 5) 25 0) := by decide
/-- D1 as a received frame: the words are loaded whole. -/
theorem test_acCool_D1 : run (decode (.received 0xD000000070200839B000000050200839#128)) State.reset
    = some (delivered (some 1) 24 3, refFrame) := by decide
/-- D9: `Temp` = 15 gives 31. -/
theorem test_acCool_D9 : (run (decode (.received 0xF000000070000F09D000000050000F09#128)) State.reset).map (·.1)
    = some (delivered (some 1) 31 0) := by decide
theorem test_acDry_D3 : (run (decode (.received 0x800000007000043A600000005000043A#128)) State.reset).map (·.1)
    = some (delivered (some 2) 20 3) := by decide
theorem test_acFan_D4 : (run (decode (.received 0xD00000007000092BB00000005000092B#128)) State.reset).map (·.1)
    = some (delivered (some 3) 25 2) := by decide
theorem test_acHeat_D5 : (run (decode (.received 0x2000000070000E1C0000000050000E1C#128)) State.reset).map (·.1)
    = some (delivered (some 4) 30 1) := by decide
theorem test_acRsv5_D8 : (run (decode (.received 0x3000000070000E1D1000000050000E1D#128)) State.reset).map (·.1)
    = some (delivered none 30 1) := by decide
theorem test_acRsv6_D8b : (run (decode (.received 0x3000000070000E0E1000000050000E0E#128)) State.reset).map (·.1)
    = some (delivered none 30 0) := by decide
theorem test_acRsv7_D8c : (run (decode (.received 0x7000000070000E3F5000000050000E3F#128)) State.reset).map (·.1)
    = some (delivered none 30 3) := by decide
/-- D6: the frame of E9 handed back. -/
theorem test_cfEncoded_D6 : (run (decode (.encoded 0x1000000070200620F000000050200620#128)) State.reset).map (·.1)
    = some (delivered (some 0) 22 2) := by decide
/-- D18: markers 0x00 and mirror broken, half-frame 0 is reported (R203). -/
theorem test_acCool_D18 : (run (decode (.received 0xC00000000000000C6000000000200839#128)) State.reset).map (·.1)
    = some (delivered (some 1) 24 3) := by decide

/-! ### Witnesses: for each statement with hypotheses, concrete operands and states that meet them -/

/-- The frame `REF` as its bits. -/
def refBits : FrameBits := 0xD000000070200839B000000050200839#128

/-- The climate state of the scenario S9 of 95_test_vectors.md. -/
def scenario : ClimateState := { mode := .cool, temp := 24, fan := some .high, swing := .off, light := true }

theorem test_witness_StepRunsThePresentedInstruction :
    (∃ s : State, ∃ w c x rest, s.pending = .operation w c x :: rest)
    ∧ (∃ s : State, ∃ f rest, s.pending = .received f :: rest)
    ∧ (∃ s : State, ∃ f rest, s.pending = .encoded f :: rest) :=
  ⟨⟨State.reset.withPending [.operation 0xC0000 Acs.idle Rx.idle, .reset], _, _, _, _, rfl⟩,
   ⟨State.reset.withPending [.received refBits], _, _, rfl⟩, ⟨State.reset.withPending [.encoded refBits], _, _, rfl⟩⟩

theorem test_witness_IdleAndResetEvent :
    State.reset.pending = [] ∧ (State.reset.withPending [.reset, .received refBits]).pending
      = .reset :: [.received refBits] := by decide

/-- One value of each width of the opcode table. -/
theorem test_witness_PlacedWordRunsNext :
    decodeTableWord 8 0x9 = some (.acCool 0)
    ∧ decodeTableWord 24 0x10300 = some (.frdb 3 0)
    ∧ decodeTableWord 128 0x00000000700000000000000050000000 = some (.cfEncoded 0 0 0 0 0 0 0 0) := by decide

theorem test_witness_ReceivedFrameHasItsClass :
    (0xFFFFFFFFFFFFFFFFFFFFFFFFFFFFFFF7#128 &&& 0x8#128 = 0x0#128)
    ∧ (0x0000000000000000000000000000FFF8#128 &&& 0xF#128 = 0x8#128) ∧ (refBits &&& 0xF#128 = 0x9#128)
    ∧ (0xA#128 &&& 0xF#128 = 0xA#128) ∧ (0xB#128 &&& 0xF#128 = 0xB#128) ∧ (0xC#128 &&& 0xF#128 = 0xC#128)
    ∧ (0xD#128 &&& 0xF#128 = 0xD#128) ∧ (0xE#128 &&& 0xF#128 = 0xE#128)
    ∧ (0xFFFFFFFFFFFFFFFFFFFFFFFFFFFFFFFF#128 &&& 0xF#128 = 0xF#128) := by decide

theorem test_witness_DecodeUndoesEncode :
    WellFormed (.frdb 0xFF 0x80) = true ∧ WellFormed (.acOff 7 (-1)) = true
    ∧ WellFormed (.cfEncoded 7 1 3 15 1 0 0xF 0xF) = true := by decide

/-- The last address in range and the first out of range, for `FRDB` and `FWRB`, and a field of the byte. -/
theorem test_witness_FrdbReadsItsByte : (15 : Byte).toNat < 16 ∧ 16 ≤ (16 : Byte).toNat := by decide
theorem test_witness_FwrbWritesItsByte :
    (15 : Byte).toNat < 16 ∧ Field.sum2.byte.val = (15 : Byte).toNat ∧ 16 ≤ (16 : Byte).toNat := by decide
theorem test_witness_FrdfReadsItsField : (14 : Byte).toNat ≤ 14 ∧ 15 ≤ (15 : Byte).toNat := by decide
theorem test_witness_FwrfWritesItsField : (0 : Byte).toNat ≤ 14 ∧ 15 ≤ (255 : Byte).toNat := by decide
theorem test_witness_FrdbitReadsItsBit : (127 : Byte).toNat / 8 < 16 ∧ 128 ≤ (128 : Byte).toNat := by decide
theorem test_witness_FwrbitWritesItsBit : (127 : Byte).toNat < 128 ∧ 128 ≤ (128 : Byte).toNat := by decide

theorem test_witness_PackAndUnpackAreInverse :
    (∃ t, exec (.funpack 0 0) (withRx 2 1 2) = .next t)
    ∧ (∃ t r x, exec (.fpack 0 0) (withFrame refFrame) = .next t ∧ t.lastResponse = some r ∧ r.tx = some x
        ∧ (withRx 2 0xB000000050200839 0xD000000070200839).rx.w0 = x.w0
        ∧ (withRx 2 0xB000000050200839 0xD000000070200839).rx.w1 = x.w1) :=
  ⟨⟨_, rfl⟩, ⟨_, _, _, rfl, rfl, rfl, by decide, by decide⟩⟩

/-- Reading the written field, and another one of the same byte. -/
theorem test_witness_FieldsReadBackAndAreIndependent :
    fieldId 1 = some .power ∧ (0 : Byte).toNat ≤ 14 ∧ (1 : Byte).toNat ≤ 14 ∧ (0 : Byte) ≠ 1
    ∧ ∃ t, exec (.fwrf 1 1) (withFrame refFrame) = .next t := ⟨rfl, by decide, by decide, by decide, _, rfl⟩

theorem test_witness_InspectionHasNoSideEffect :
    Inspects (.csum 1 0) ∧ ∃ t, exec (.csum 1 0) (withFrame refFrame) = .next t := ⟨trivial, _, rfl⟩

theorem test_witness_RepeatingLeavesTheSameFrame :
    ∃ t, exec (.fmirror 0 0) (withFrame refFrame) = .next t := ⟨_, rfl⟩

theorem test_witness_CsumSumsTheNibbles : (1 : Byte).toNat < 2 ∧ 2 ≤ (2 : Byte).toNat := by decide

/-- Bits 59 and 120 lie in the uncovered nibbles, bits 60 and 124 in stored sums, bit 0 in a covered byte. -/
theorem test_witness_SingleBitErrorIsDetected :
    refFrame.Valid
    ∧ (∀ n ∈ ([0, 55, 56, 59, 60, 119, 120, 123, 124, 127] : List (Fin 128)),
        (if refFrame.bit n then 0 else 1 : Byte).getLsbD 0 = !refFrame.bit n)
    ∧ (∃ t, exec (.fwrbit 59 1) (withFrame refFrame) = .next t)
    ∧ (∃ t, exec (.fwrbit 60 0) (withFrame refFrame) = .next t) :=
  ⟨by decide, by decide, ⟨_, rfl⟩, ⟨_, rfl⟩⟩

/-- Both ends of the encoder's contract. -/
theorem test_witness_EncodeBuildsTheFrame :
    (withAcs 0 16 false 3 1 true).acs.InEncodeContract ∧ (withAcs 5 30 true 2 0 false).acs.InEncodeContract := by
  decide

theorem test_witness_EncodedFramesKeepTheirInvariants :
    (16 ≤ (16 : Byte).toNat ∧ (16 : Byte).toNat ≤ 30) ∧ (16 ≤ (30 : Byte).toNat ∧ (30 : Byte).toNat ≤ 30)
    ∧ (withAcs 3 16 false 0 1 false).acs.InEncodeContract := by decide

theorem test_witness_StoredSumsDifferByTheMarkers : 16 ≤ (25 : Byte).toNat ∧ (25 : Byte).toNat ≤ 30 := by decide

theorem test_witness_CallsOutsideTheContractAreRefused :
    6 ≤ (withAcs 6 24 false 0 0 false).acs.mode.toNat
    ∧ ((withAcs 5 15 false 0 0 false).acs.mode.toNat ≤ 5 ∧ (withAcs 5 15 false 0 0 false).acs.temp.toNat < 16)
    ∧ ((withAcs 0 31 false 0 0 false).acs.mode.toNat ≤ 5 ∧ 30 < (withAcs 0 31 false 0 0 false).acs.temp.toNat)
    ∧ 6 ≤ (withAcs 7 24 false 0 0 false).acs.mode.toNat := by decide

/-- The operands of the sequence for the scenario S9, and for OFF with the fan unset. -/
theorem test_witness_EncodeEqualsItsOperationSequence :
    ((withAcs 1 24 true 3 0 true).acs.InEncodeContract ∧ (24 : Byte) - 16 = 8)
    ∧ (withAcs 0 16 false 0 0 false).acs.InEncodeContract := by decide

theorem test_witness_AdjustForcesSwingAndSetpoint :
    (withAcs 0 22 false 0 1 false).acs.mode.toNat ≤ 5 ∧ (withAcs 5 200 false 0 1 false).acs.mode.toNat ≤ 5 := by
  decide

/-- OFF (A1), and FAN_ONLY with the state the host encodes afterwards (P5). -/
theorem test_witness_AdjustedFramesCarryTheSetpoint :
    (∃ t r, exec (.adjust 0 0) { State.reset with acs := { scenario with mode := .off }.toAcs 0 } = .next t
      ∧ t.lastResponse = some r)
    ∧ (∃ t r, exec (.adjust 0 0) { State.reset with acs := { scenario with mode := .fanOnly }.toAcs 0 } = .next t
      ∧ t.lastResponse = some r
      ∧ (withAcs 3 25 true 3 0 true).acs = ({ scenario with mode := .fanOnly }.afterAdjust r).toAcs 0) :=
  ⟨⟨_, _, rfl, rfl⟩, ⟨_, _, rfl, rfl, rfl⟩⟩

theorem test_witness_DecodeRejectsShortInput :
    (withRx 0 0 0).rx.n.toNat < 2 ∧ (withRx 1 0xB000000050200839 0).rx.n.toNat < 2 := by decide

/-- D12 and D13: either half-frame alone. -/
theorem test_witness_DecodeRejectsBadChecksum :
    2 ≤ (withRx 2 0 0).rx.n.toNat ∧ ¬ (unpack 0xB000000050200939 0xD000000070200839).Valid
    ∧ ¬ (unpack 0xB000000050200839 0xD000000070200939).Valid := by decide

/-- D7, D2, D1, D5, D8 and D8c: each clause on the mode, at both ends of its range. -/
theorem test_witness_DecodeDeliversTheUpdate :
    2 ≤ (withRx 2 0 0).rx.n.toNat
    ∧ ((unpack 0xA000000050000E07 0xC000000070000E07).Valid
        ∧ (unpack 0xA000000050000E07 0xC000000070000E07).bit 3 = false)
    ∧ ((unpack 0x8000000050200908 0xA000000070200908).Valid
        ∧ ((unpack 0x8000000050200908 0xA000000070200908).byte 0).toNat % 8 = 0)
    ∧ ((unpack 0xB000000050200839 0xD000000070200839).Valid
        ∧ ((unpack 0xB000000050200839 0xD000000070200839).byte 0).toNat % 8 = 1)
    ∧ ((unpack 0x0000000050000E1C 0x2000000070000E1C).Valid
        ∧ ((unpack 0x0000000050000E1C 0x2000000070000E1C).byte 0).toNat % 8 = 4)
    ∧ ((unpack 0x1000000050000E1D 0x3000000070000E1D).Valid
        ∧ ((unpack 0x1000000050000E1D 0x3000000070000E1D).byte 0).toNat % 8 = 5)
    ∧ ((unpack 0x5000000050000E3F 0x7000000070000E3F).Valid
        ∧ (unpack 0x5000000050000E3F 0x7000000070000E3F).bit 3 = true) := by decide

theorem test_witness_PowerOffClassDelivers :
    encode (.acOff 7 0xC000000070000E07A000000050000E0#124) = .received 0xC000000070000E07A000000050000E07#128
    ∧ (Frame.ofBits 0xC000000070000E07A000000050000E07#128).Valid := by decide

theorem test_witness_DefinedModeClassesDeliver :
    (encode (.acAuto 0xA000000070200908800000005020090#124) = .received 0xA0000000702009088000000050200908#128
      ∧ (Frame.ofBits 0xA0000000702009088000000050200908#128).Valid)
    ∧ (encode (.acCool 0xD000000070200839B00000005020083#124) = .received refBits ∧ (Frame.ofBits refBits).Valid)
    ∧ (encode (.acDry 0x800000007000043A600000005000043#124) = .received 0x800000007000043A600000005000043A#128
      ∧ (Frame.ofBits 0x800000007000043A600000005000043A#128).Valid)
    ∧ (encode (.acFan 0xD00000007000092BB00000005000092#124) = .received 0xD00000007000092BB00000005000092B#128
      ∧ (Frame.ofBits 0xD00000007000092BB00000005000092B#128).Valid)
    ∧ (encode (.acHeat 0x2000000070000E1C0000000050000E1#124) = .received 0x2000000070000E1C0000000050000E1C#128
      ∧ (Frame.ofBits 0x2000000070000E1C0000000050000E1C#128).Valid) := by decide

theorem test_witness_ReservedModeClassesDeliver :
    (encode (.acRsv5 0x3000000070000E1D1000000050000E1#124) = .received 0x3000000070000E1D1000000050000E1D#128
      ∧ (Frame.ofBits 0x3000000070000E1D1000000050000E1D#128).Valid)
    ∧ (encode (.acRsv6 0x3000000070000E0E1000000050000E0#124) = .received 0x3000000070000E0E1000000050000E0E#128
      ∧ (Frame.ofBits 0x3000000070000E0E1000000050000E0E#128).Valid)
    ∧ (encode (.acRsv7 0x7000000070000E3F5000000050000E3#124) = .received 0x7000000070000E3F5000000050000E3F#128
      ∧ (Frame.ofBits 0x7000000070000E3F5000000050000E3F#128).Valid) := by decide

theorem test_witness_EncodedPatternIsDecoded :
    encode (.cfEncoded 1 1 3 8 1 0 0xB 0xD) = .encoded refBits ∧ (Frame.ofBits refBits).Valid := by decide

theorem test_witness_PresentedFramesWithBadSumsAreRejected :
    (encode (.acHeat 0) = .received 0xC#128 ∧ ¬ (Frame.ofBits 0xC#128).Valid)
    ∧ (encode (.cfEncoded 1 1 3 8 1 0 0xA 0xD) = .encoded 0xD000000070200839A000000050200839#128
      ∧ ¬ (Frame.ofBits 0xD000000070200839A000000050200839#128).Valid) := by decide

theorem test_witness_FrameClassesRefineDecode :
    2 ≤ (withRx 2 0xB000000050200839 0xD000000070200839).rx.n.toNat
    ∧ (withRx 2 0xB000000050200839 0xD000000070200839).rx.w0 = refBits.extractLsb' 0 64
    ∧ (withRx 2 0xB000000050200839 0xD000000070200839).rx.w1 = refBits.extractLsb' 64 64 := by decide

theorem test_witness_DecodeIsUnpackThenCheck :
    ∃ t u v r r', exec (.decode 0 0) (withRx 2 0 0) = .next t ∧ exec (.funpack 0 0) (withRx 2 0 0) = .next u
      ∧ exec (.cschk 0 0) u = .next v ∧ t.lastResponse = some r ∧ v.lastResponse = some r' :=
  ⟨_, _, _, _, _, rfl, rfl, rfl, rfl, rfl⟩

/-- The scenario S9: the climate state, and the receiver that gets the words of `REF`. -/
theorem test_witness_EncodeThenDecodeRoundTrip :
    16 ≤ scenario.temp.toNat ∧ scenario.temp.toNat ≤ 30
    ∧ (withAcs 1 24 true 3 0 true).acs = scenario.toAcs 0
    ∧ ∃ t r x, exec (.encode 0 0) (withAcs 1 24 true 3 0 true) = .next t ∧ t.lastResponse = some r
      ∧ r.tx = some x ∧ 2 ≤ (withRx 2 0xB000000050200839 0xD000000070200839).rx.n.toNat
      ∧ (withRx 2 0xB000000050200839 0xD000000070200839).rx.w0 = x.w0
      ∧ (withRx 2 0xB000000050200839 0xD000000070200839).rx.w1 = x.w1 :=
  ⟨by decide, by decide, by decide, _, _, _, rfl, rfl, rfl, by decide, by decide, by decide⟩

/-- D1 and D18: two frames that agree in the four fields and in nothing else. -/
theorem test_witness_DecodeReadsFourFieldsOnly :
    (unpack 0xB000000050200839 0xD000000070200839).Valid ∧ (unpack 0x6000000000200839 0xC00000000000000C).Valid
    ∧ (0xB000000050200839#64).extractLsb' 0 6 = (0x6000000000200839#64).extractLsb' 0 6
    ∧ (0xB000000050200839#64).extractLsb' 8 4 = (0x6000000000200839#64).extractLsb' 8 4
    ∧ (∃ t, exec (.decode 0 0) (withRx 2 0xB000000050200839 0xD000000070200839) = .next t)
    ∧ (∃ t, exec (.decode 0 0) (withRx 2 0x6000000000200839 0xC00000000000000C) = .next t) :=
  ⟨by decide, by decide, by decide, by decide, ⟨_, rfl⟩, ⟨_, rfl⟩⟩

theorem test_witness_MergeHappensOnlyOnSuccess :
    badOperand.status ≠ .ok
    ∧ (delivered none 30 1).status = .ok
    ∧ (delivered none 30 1).upd
        = some { valid := true, modeWe := false, mode := none, temp := some 30, fan := some 1 } := by decide

theorem test_witness_EveryOperationAnswersOnce :
    ∃ t, exec (.frdf 15 0) (withFrame refFrame) = .next t := ⟨_, rfl⟩

/-- A write of byte 3 may not write byte 4; a short `DECODE` may write nothing. -/
theorem test_witness_OperationsWriteOnlyTheirBytes :
    ((∃ t, exec (.fwrb 3 0x50) State.reset = .next t) ∧ ¬ MayWrite (.fwrb 3 0x50) State.reset 4)
    ∧ ((∃ t, exec (.decode 0 0) (withRx 1 0 0) = .next t) ∧ ¬ MayWrite (.decode 0 0) (withRx 1 0 0) 0) := by
  refine ⟨⟨⟨_, rfl⟩, ?_⟩, ⟨⟨_, rfl⟩, ?_⟩⟩
  · show ¬ (4 : Fin 16).val = (3 : Byte).toNat; decide
  · show ¬ 2 ≤ (withRx 1 0 0).rx.n.toNat; decide

/-- `CSUM 0` on two frames that differ in byte 7 alone. -/
theorem test_witness_ResponsesDependOnTheBytesRead :
    (∀ k, MayReport (.csum 0 0) k → (refFrame.setByte 7 0).byte k = (withFrame refFrame).fr.byte k)
    ∧ ∃ t, exec (.csum 0 0) (withFrame refFrame) = .next t := by
  refine ⟨fun k hk => ?_, _, rfl⟩
  have h : k.val ≤ 6 := hk.2
  clear hk; revert k; decide

theorem test_witness_WholeFrameWritesForgetTheOldFrame :
    (∀ k, MayWrite (.decode 0 0) (withRx 2 0 0) k) ∧ ∃ t, exec (.decode 0 0) (withRx 2 0 0) = .next t :=
  ⟨fun _ => by show 2 ≤ (withRx 2 0 0).rx.n.toNat; decide, _, rfl⟩

/-- The first value out of range of each operand, and an answer of `BAD_OPERAND`. -/
theorem test_witness_BadOperandExactlyOutOfRange :
    (OutOfRange (.frdb 16 0) ∧ OutOfRange (.fwrf 15 0) ∧ OutOfRange (.frdbit 128 0) ∧ OutOfRange (.csum 2 0))
    ∧ ∃ t r, exec (.csum 2 0) (withFrame refFrame) = .next t ∧ t.lastResponse = some r ∧ r.status = .badOperand :=
  ⟨by unfold OutOfRange; decide, _, _, rfl, rfl, rfl⟩

/-- D15 rejected for its checksums, and a short input. -/
theorem test_witness_UnhandledComesFromReception :
    (∃ t r, exec (.decode 0 0) (withRx 2 (-1) (-1)) = .next t ∧ t.lastResponse = some r
      ∧ r.status = .unhandledCsum)
    ∧ (∃ t r, exec (.decode 0 0) (withRx 1 (-1) 0) = .next t ∧ t.lastResponse = some r
      ∧ r.status = .unhandledShort) := ⟨⟨_, _, rfl, rfl, rfl⟩, ⟨_, _, rfl, rfl, rfl⟩⟩

/-- A state that has answered a failure, and steps on to a reception. -/
theorem test_witness_StepKeepsResponsesSound :
    ((State.reset.respond badOperand).withPending [.received refBits]).ResponsesSound
    ∧ ∃ t, step ((State.reset.respond badOperand).withPending [.received refBits]) = .next t := by
  refine ⟨fun r hr => ?_, _, rfl⟩
  have hr : r = badOperand := by simpa [State.withPending, State.respond, State.reset] using hr
  subst hr
  exact ⟨fun _ h => by simp [badOperand] at h, fun _ => ⟨rfl, rfl, rfl, fun _ h => by simp [badOperand] at h⟩,
    fun _ h => by simp [badOperand] at h⟩

/-- A host that encodes inside the contract, resets and presents a frame. -/
theorem test_witness_HonestHostIsNeverStopped :
    (State.reset.withPending
      [.operation 0xD0000 (scenario.toAcs 0) Rx.idle, .reset, .received refBits]).HostKeepsContract := by
  intro a ha
  simp only [State.withPending, List.mem_cons, List.not_mem_nil, or_false] at ha
  rcases ha with rfl | rfl | rfl
  · show (scenario.toAcs 0).InEncodeContract; decide
  · trivial
  · trivial

end Sys2Proof.Tests
end

section
/-! A host that keeps its contract is never stopped. Inside the contract every instruction answers a next
state; only `ENCODE` and `ADJUST` have a contract at all, and they come from command words alone, so what an
admissible action presents is inside it; and an instruction leaves the host's list as it is. -/

namespace Sys2Proof.Machine

/-! ### Inside the contract every instruction answers -/

theorem complete_answers (fr : Frame) (r : Response) (s : State) : ∃ t, complete fr r s = .next t := ⟨_, rfl⟩

theorem raise_answers (e : Failure) (s : State) : ∃ t, raise e s = .next t := complete_answers _ _ s

theorem receive_answers (fr : Frame) (mode : Option AbsMode) (s : State) : ∃ t, receive fr mode s = .next t :=
  ⟨_, receive_next fr mode s⟩

/-- `DECODE` answers whatever the receiver delivered: too few words are a failure status (R191). -/
theorem exec_decode_answers (a d : Byte) (s : State) : ∃ t, exec (.decode a d) s = .next t := by
  rcases Nat.lt_or_ge s.rx.n.toNat 2 with hshort | henough
  · rw [exec_decode_short a d s hshort]; exact raise_answers _ s
  · rw [exec_decode a d s henough]; exact receive_answers _ _ s

theorem exec_encode_answers (a d : Byte) (s : State) (h : s.acs.InEncodeContract) :
    ∃ t, exec (.encode a d) s = .next t := by
  obtain ⟨_, _, -, -, -, heq⟩ := exec_encode a d s h
  rw [heq]; exact complete_answers _ _ s

theorem exec_adjust_answers (a d : Byte) (s : State) (h : s.acs.InAdjustContract) :
    ∃ t, exec (.adjust a d) s = .next t := by
  obtain ⟨m, hm, -⟩ := AbsMode.ofCode_some h
  rw [exec_adjust a d s m hm]; exact complete_answers _ _ s

/-- Inside its contract every instruction answers a next state (R14, R172, R180): an operand out of range and
a frame that cannot be accepted are failure statuses, not stops. -/
theorem exec_answers {i : Instr} {s : State} (h : ContractKept i s.acs) : ∃ t, exec i s = .next t := by
  cases i with
  | encode a d => exact exec_encode_answers a d s h
  | adjust a d => exact exec_adjust_answers a d s h
  | decode a d => exact exec_decode_answers a d s
  | fclr | fmirror | fpack | funpack | csapply | cschk => exact complete_answers _ _ s
  | frdb | fwrb | frdf | fwrf | frdbit | fwrbit | csum =>
    simp only [exec, execFrdb, execFwrb, execFrdf, execFwrf, execFrdbit, execFwrbit, execCsum]
    split
    · exact complete_answers _ _ s
    · exact raise_answers _ s
  | acOff | acAuto | acCool | acDry | acFan | acHeat | acRsv5 | acRsv6 | acRsv7 | cfEncoded =>
    exact receive_answers _ _ s

/-- An instruction leaves what the host does next as it is. -/
theorem exec_pending {i : Instr} {s t : State} (h : exec i s = .next t) : t.pending = s.pending := by
  obtain ⟨fr, r, rfl⟩ := exec_inv h
  rfl

/-! ### What an admissible action presents is inside the contract -/

/-- Receptions have no contract (R172, R180). -/
theorem contractKept_of_receives {i : Instr} (h : Receives i) (c : Acs) : ContractKept i c := by
  cases i with
  | encode | adjust => exact h.elim
  | _ => trivial

/-- A received frame is presented as a reception, whatever its class (R93). -/
theorem decodeReceived_receives (f : FrameBits) : Receives (decodeReceived f) := by
  unfold decodeReceived
  split
  · trivial
  · split <;> trivial

/-- So is a frame handed back as encoded, whether it has the pattern R83 or not. -/
theorem decodeEncoded_receives (f : FrameBits) : Receives (decodeEncoded f) := by
  unfold decodeEncoded
  split
  · trivial
  · exact decodeReceived_receives f

/-- The ports an admissible action leaves keep the contract of the instruction it presents. -/
theorem HostAction.Admissible.contractKept {a : HostAction} {i : Instr} (ha : a.Admissible)
    (hi : a.instr = some i) (s : State) : ContractKept i (s.sample a).acs := by
  cases a with
  | reset => cases hi
  | operation cw acs rx => cases hi; exact ha
  | received f => cases hi; exact contractKept_of_receives (decodeReceived_receives f) _
  | encoded f => cases hi; exact contractKept_of_receives (decodeEncoded_receives f) _

/-! ### One step, by what the host does next -/

theorem step_of_pending_nil {s : State} (h : s.pending = []) : step s = .next s := by
  simp only [step, h]

theorem step_of_reset {s : State} {a : HostAction} {rest : List HostAction} (h : s.pending = a :: rest)
    (ha : a.instr = none) : step s = .next (s.withPending rest).applyReset := by
  simp only [step, h, ha]

theorem step_of_instr {s : State} {a : HostAction} {rest : List HostAction} {i : Instr}
    (h : s.pending = a :: rest) (ha : a.instr = some i) : step s = exec i ((s.withPending rest).sample a) := by
  simp only [step, h, ha]

/-- When the first action is admissible, the step answers and takes exactly that action off the host's list. -/
theorem step_takes_admissible {s : State} {a : HostAction} {rest : List HostAction}
    (h : s.pending = a :: rest) (ha : a.Admissible) : ∃ t, step s = .next t ∧ t.pending = rest := by
  cases hi : a.instr with
  | none => exact ⟨_, step_of_reset h hi, rfl⟩
  | some i =>
    obtain ⟨t, ht⟩ := exec_answers (ha.contractKept hi (s.withPending rest))
    refine ⟨t, (step_of_instr h hi).trans ht, ?_⟩
    simp [exec_pending ht]

/-- Settles O58: an idle step changes nothing; any other step answers and leaves the rest of the host's list,
whose actions were admissible already. -/
theorem honestHostIsNeverStopped : Obligations.HonestHostIsNeverStopped := by
  intro s hs
  cases hp : s.pending with
  | nil => exact ⟨s, step_of_pending_nil hp, hs⟩
  | cons a rest =>
    have ⟨ha, hrest⟩ : a.Admissible ∧ ∀ b ∈ rest, b.Admissible := by
      simpa [State.HostKeepsContract, hp] using hs
    obtain ⟨t, ht, htp⟩ := step_takes_admissible hp ha
    refine ⟨t, ht, ?_⟩
    rw [State.HostKeepsContract, htp]
    exact hrest

end Sys2Proof.Machine
end

section
/-! The frame register under the instructions: what an operation may write of it, what a response may report of
it, and when its old value is forgotten; then reset, the step, and the placing of a word (R22, R24, R33, R59). -/

namespace Sys2Proof.Machine

/-! ### What an index operand names (R92) -/

theorem byteAddress_val {a : Byte} {k : Fin 16} (h : byteAddress a = some k) : k.val = a.toNat := by
  obtain ⟨_, ⟨⟩⟩ := Option.dite_none_right_eq_some.mp h
  rfl

theorem bitAddress_val {a : Byte} {n : Fin 128} (h : bitAddress a = some n) : n.val = a.toNat := by
  obtain ⟨_, ⟨⟩⟩ := Option.dite_none_right_eq_some.mp h
  rfl

theorem halfIndex_val {a : Byte} {h : Fin 2} (hh : halfIndex a = some h) : h.val = a.toNat := by
  obtain ⟨_, ⟨⟩⟩ := Option.dite_none_right_eq_some.mp hh
  rfl

theorem byteAddress_ofNat (k : Fin 16) : byteAddress (BitVec.ofNat 8 k.val) = some k := by
  revert k; decide

theorem halfIndex_ofNat (h : Fin 2) : halfIndex (BitVec.ofNat 8 h.val) = some h := by
  revert h; decide

/-! ### The bytes an instruction may write (R22, last column) -/

theorem complete_fr {fr : Frame} {r : Response} {s t : State} (h : complete fr r s = .next t) : t.fr = fr :=
  (complete_inv h).1

theorem raise_fr {e : Failure} {s t : State} (h : raise e s = .next t) : t.fr = s.fr := (raise_inv h).1

/-- An operation that only inspects leaves the frame register (R49). -/
theorem exec_fr_of_inspects {i : Instr} {s t : State} (h : exec i s = .next t) (hi : Inspects i) :
    t.fr = s.fr := by
  cases i with
  | fpack | cschk => exact complete_fr h
  | frdb | frdf | frdbit | csum =>
    simp only [exec, execFrdb, execFrdf, execFrdbit, execCsum] at h
    split at h
    · exact complete_fr h
    · exact raise_fr h
  | _ => exact hi.elim

theorem exec_adjust_fr {a d : Byte} {s t : State} (h : exec (.adjust a d) s = .next t) : t.fr = s.fr := by
  simp only [exec, execAdjust] at h
  split at h
  · cases h
  · exact complete_fr h

theorem exec_fwrb_byte {a d : Byte} {s t : State} {k : Fin 16} (h : exec (.fwrb a d) s = .next t)
    (hk : k.val ≠ a.toNat) : t.fr.byte k = s.fr.byte k := by
  simp only [exec, execFwrb] at h
  split at h
  next j hj =>
    have hjk : j ≠ k := fun e => hk (e ▸ byteAddress_val hj)
    rw [complete_fr h, Frame.byte_setByte, if_neg hjk]
  next => rw [raise_fr h]

theorem exec_fwrf_byte {a d : Byte} {s t : State} {k : Fin 16} (h : exec (.fwrf a d) s = .next t)
    (hk : ∀ f, fieldId a = some f → f.byte ≠ k) : t.fr.byte k = s.fr.byte k := by
  simp only [exec, execFwrf] at h
  split at h
  next f hf => rw [complete_fr h, Frame.writeField_byte_ne _ _ _ _ (hk f hf)]
  next => rw [raise_fr h]

theorem exec_fwrbit_byte {a d : Byte} {s t : State} {k : Fin 16} (h : exec (.fwrbit a d) s = .next t)
    (hk : k.val ≠ a.toNat / 8) : t.fr.byte k = s.fr.byte k := by
  simp only [exec, execFwrbit] at h
  split at h
  next n hn =>
    have hnk : bitByte n ≠ k := fun e => hk (by rw [← e, ← bitAddress_val hn]; rfl)
    rw [complete_fr h, Frame.setBit_byte_ne _ _ _ _ hnk]
  next => rw [raise_fr h]

theorem Frame.mirror_byte (fr : Frame) {k : Fin 16} (h8 : k ≠ 8) (h9 : k ≠ 9) (h10 : k ≠ 10) :
    fr.mirror.byte k = fr.byte k := by
  simp only [Frame.mirror, Frame.byte_setByte, h8.symm, h9.symm, h10.symm, if_false]

/-- Settles O51, by cases on the instruction: inspections, `ADJUST` and a short `DECODE` keep the whole frame
register, the other operations that do not overwrite it whole write through one view of it. -/
theorem operationsWriteOnlyTheirBytes : Obligations.OperationsWriteOnlyTheirBytes := by
  intro i s t k h hk
  cases i with
  | frdb | frdf | frdbit | fpack | csum | cschk => rw [exec_fr_of_inspects h trivial]
  | adjust => rw [exec_adjust_fr h]
  | fwrb => exact exec_fwrb_byte h hk
  | fwrf => exact exec_fwrf_byte h fun f hf hb => hk ⟨f, hf, hb⟩
  | fwrbit => exact exec_fwrbit_byte h hk
  | fmirror =>
    obtain ⟨h8, h9, h10⟩ : k ≠ 8 ∧ k ≠ 9 ∧ k ≠ 10 := by simpa [MayWrite] using hk
    rw [complete_fr h, Frame.mirror_byte _ h8 h9 h10]
  | csapply =>
    obtain ⟨h7, h15⟩ : k ≠ 7 ∧ k ≠ 15 := by simpa [MayWrite] using hk
    rw [complete_fr h, Frame.applyChecksums_byte _ _ h7 h15]
  | decode a d =>
    have hshort : s.rx.n.toNat < 2 := Nat.lt_of_not_le hk
    rw [exec_decode_short a d s hshort] at h
    rw [raise_fr h]
  | fclr | funpack | encode | acOff | acAuto | acCool | acDry | acFan | acHeat | acRsv5 | acRsv6 | acRsv7
  | cfEncoded => exact absurd trivial hk

/-! ### The instructions that overwrite the frame register whole (R59) -/

/-- A reception loads its frame over whatever the frame register held (R192). -/
theorem receive_setFr (new : Frame) (mode : Option AbsMode) (s : State) (fr : Frame) :
    receive new mode (s.setFr fr) = receive new mode s := by
  rw [receive_next, receive_next]; rfl

/-- An instruction that may write every byte has the same outcome whatever the frame register held: the
partial writes miss byte 0 or byte 1, and the others read nothing of it. -/
theorem exec_setFr_of_mayWrite_all {i : Instr} {s : State} (h : ∀ k, MayWrite i s k) (fr : Frame) :
    exec i (s.setFr fr) = exec i s := by
  cases i with
  | fclr | funpack | encode => rfl
  | acOff | acAuto | acCool | acDry | acFan | acHeat | acRsv5 | acRsv6 | acRsv7 | cfEncoded =>
    exact receive_setFr _ _ s fr
  | decode a d =>
    have henough : 2 ≤ s.rx.n.toNat := h 0
    rw [exec_decode a d s henough, exec_decode a d (s.setFr fr) henough]
    exact receive_setFr _ _ s fr
  | fwrb a | fwrbit a =>
    have h0 := h 0
    have h1 := h 1
    simp only [MayWrite] at h0 h1
    omega
  | fwrf a =>
    obtain ⟨f, hf, h0⟩ := h 0
    obtain ⟨g, hg, h1⟩ := h 1
    have hfg : f = g := Option.some.inj (hf.symm.trans hg)
    have h01 : (0 : Fin 16) = 1 := by rw [← h0, ← h1, hfg]
    exact absurd h01 (by decide)
  | fmirror | csapply => exact absurd (h 0) (by simp [MayWrite])
  | frdb | frdf | frdbit | fpack | csum | cschk | adjust => exact (h 0).elim

/-- Settles O53: the whole outcome is the same, so the frame register left is. -/
theorem wholeFrameWritesForgetTheOldFrame : Obligations.WholeFrameWritesForgetTheOldFrame :=
  fun _ _ t fr hall h => ⟨t, (exec_setFr_of_mayWrite_all hall fr).trans h, rfl⟩

/-! ### The bytes a response may report (R22, middle column) -/

/-- If the first outcome is a next state, so is the second, and the same responses have been given in it. -/
def AnswersAlike (o o' : Host.Outcome State Fault Refusal) : Prop :=
  ∀ t, o = .next t → ∃ u, o' = .next u ∧ u.responses = t.responses

theorem AnswersAlike.of_eq {o o' : Host.Outcome State Fault Refusal} (h : o' = o) : AnswersAlike o o' :=
  fun t ht => ⟨t, h.trans ht, rfl⟩

/-- Completions with one response answer alike, whatever the frames before and after. -/
theorem complete_answersAlike (fr₁ fr₂ fr : Frame) (r : Response) (s : State) :
    AnswersAlike (complete fr₁ r s) (complete fr₂ r (s.setFr fr)) := by
  rintro _ ⟨⟩
  exact ⟨_, rfl, rfl⟩

theorem raise_answersAlike (e : Failure) (s : State) (fr : Frame) :
    AnswersAlike (raise e s) (raise e (s.setFr fr)) := complete_answersAlike _ _ fr _ s

theorem Frame.bit_congr {fr fr' : Frame} {n : Fin 128} (h : fr.byte (bitByte n) = fr'.byte (bitByte n)) :
    fr.bit n = fr'.bit n := by
  simp only [Frame.bit, h]

theorem exec_frdb_answersAlike {a d : Byte} {s : State} {fr : Frame}
    (h : ∀ k : Fin 16, k.val = a.toNat → fr.byte k = s.fr.byte k) :
    AnswersAlike (exec (.frdb a d) s) (exec (.frdb a d) (s.setFr fr)) := by
  cases hk : byteAddress a with
  | none => simp only [exec, execFrdb, hk]; exact raise_answersAlike _ s fr
  | some k =>
    simp only [exec, execFrdb, hk, State.setFr_fr, h k (byteAddress_val hk)]
    exact complete_answersAlike _ _ fr _ s

theorem exec_frdf_answersAlike {a d : Byte} {s : State} {fr : Frame}
    (h : ∀ f, fieldId a = some f → fr.byte f.byte = s.fr.byte f.byte) :
    AnswersAlike (exec (.frdf a d) s) (exec (.frdf a d) (s.setFr fr)) := by
  cases hf : fieldId a with
  | none => simp only [exec, execFrdf, hf]; exact raise_answersAlike _ s fr
  | some f =>
    simp only [exec, execFrdf, hf, State.setFr_fr, Frame.readField_congr (h f hf)]
    exact complete_answersAlike _ _ fr _ s

theorem exec_frdbit_answersAlike {a d : Byte} {s : State} {fr : Frame}
    (h : ∀ k : Fin 16, k.val = a.toNat / 8 → fr.byte k = s.fr.byte k) :
    AnswersAlike (exec (.frdbit a d) s) (exec (.frdbit a d) (s.setFr fr)) := by
  cases hn : bitAddress a with
  | none => simp only [exec, execFrdbit, hn]; exact raise_answersAlike _ s fr
  | some n =>
    have hb : (bitByte n).val = a.toNat / 8 := by rw [← bitAddress_val hn]; rfl
    simp only [exec, execFrdbit, hn, State.setFr_fr, Frame.bit_congr (h _ hb)]
    exact complete_answersAlike _ _ fr _ s

theorem exec_csum_answersAlike {a d : Byte} {s : State} {fr : Frame}
    (h : ∀ k : Fin 16, 8 * a.toNat ≤ k.val ∧ k.val ≤ 8 * a.toNat + 6 → fr.byte k = s.fr.byte k) :
    AnswersAlike (exec (.csum a d) s) (exec (.csum a d) (s.setFr fr)) := by
  cases hh : halfIndex a with
  | none => simp only [exec, execCsum, hh]; exact raise_answersAlike _ s fr
  | some half =>
    have hcsum : fr.csum half = s.fr.csum half := by
      refine Frame.csum_congr fun j hj => h _ ?_
      have := halfIndex_val hh
      simp only [halfByte]
      omega
    simp only [exec, execCsum, hh, State.setFr_fr, hcsum]
    exact complete_answersAlike _ _ fr _ s

/-- The response to an indexed write depends on its operands alone (R112, R114, R116). -/
theorem exec_fwrb_answersAlike (a d : Byte) (s : State) (fr : Frame) :
    AnswersAlike (exec (.fwrb a d) s) (exec (.fwrb a d) (s.setFr fr)) := by
  cases hk : byteAddress a <;> simp only [exec, execFwrb, hk] <;> exact complete_answersAlike _ _ fr _ s

theorem exec_fwrf_answersAlike (a d : Byte) (s : State) (fr : Frame) :
    AnswersAlike (exec (.fwrf a d) s) (exec (.fwrf a d) (s.setFr fr)) := by
  cases hf : fieldId a <;> simp only [exec, execFwrf, hf] <;> exact complete_answersAlike _ _ fr _ s

theorem exec_fwrbit_answersAlike (a d : Byte) (s : State) (fr : Frame) :
    AnswersAlike (exec (.fwrbit a d) s) (exec (.fwrbit a d) (s.setFr fr)) := by
  cases hn : bitAddress a <;> simp only [exec, execFwrbit, hn] <;> exact complete_answersAlike _ _ fr _ s

/-- `DECODE` answers from the `rx` inputs alone, the short input included (R191, R192). -/
theorem exec_decode_answersAlike (a d : Byte) (s : State) (fr : Frame) :
    AnswersAlike (exec (.decode a d) s) (exec (.decode a d) (s.setFr fr)) := by
  rcases Nat.lt_or_ge s.rx.n.toNat 2 with hshort | henough
  · rw [exec_decode_short a d s hshort, exec_decode_short a d (s.setFr fr) hshort]
    exact raise_answersAlike _ s fr
  · refine .of_eq (exec_setFr_of_mayWrite_all ?_ fr)
    exact fun _ => henough

/-- `ADJUST` answers from the `acs` inputs alone; when it is refused there is no answer (R180). -/
theorem exec_adjust_answersAlike (a d : Byte) (s : State) (fr : Frame) :
    AnswersAlike (exec (.adjust a d) s) (exec (.adjust a d) (s.setFr fr)) := by
  cases hm : AbsMode.ofCode s.acs.mode with
  | none =>
    simp only [exec, execAdjust, hm]
    rintro _ ⟨⟩
  | some m =>
    rw [exec_adjust a d s m hm, exec_adjust a d (s.setFr fr) m hm]
    exact complete_answersAlike _ _ fr _ s

/-- Settles O52, by cases on the instruction: a read sees the same value in the bytes that agree, `FPACK` and
`CSCHK` see the same frame, and every other response is made without the frame register. -/
theorem responsesDependOnTheBytesRead : Obligations.ResponsesDependOnTheBytesRead := by
  intro i s t fr hread ht
  suffices h : AnswersAlike (exec i s) (exec i (s.setFr fr)) from h t ht
  cases i with
  | frdb => exact exec_frdb_answersAlike hread
  | frdf => exact exec_frdf_answersAlike fun f hf => hread _ ⟨f, hf, rfl⟩
  | frdbit => exact exec_frdbit_answersAlike hread
  | csum => exact exec_csum_answersAlike hread
  | fpack | cschk =>
    have hfr : fr = s.fr := Frame.ext_byte fun k => hread k trivial
    subst hfr
    exact .of_eq rfl
  | fwrb a d => exact exec_fwrb_answersAlike a d s fr
  | fwrf a d => exact exec_fwrf_answersAlike a d s fr
  | fwrbit a d => exact exec_fwrbit_answersAlike a d s fr
  | fmirror | csapply => exact complete_answersAlike _ _ fr _ s
  | decode a d => exact exec_decode_answersAlike a d s fr
  | adjust a d => exact exec_adjust_answersAlike a d s fr
  | fclr | funpack | encode | acOff | acAuto | acCool | acDry | acFan | acHeat | acRsv5 | acRsv6 | acRsv7
  | cfEncoded =>
    refine .of_eq (exec_setFr_of_mayWrite_all ?_ fr)
    exact fun _ => trivial

/-! ### Reset (R33) -/

/-- What a completion leaves, whole. -/
theorem complete_answered (fr : Frame) (r : Response) (s : State) :
    ∃ t, complete fr r s = .next t ∧ s.Answered t r ∧ t.fr = fr :=
  ⟨_, rfl, ⟨rfl, rfl, rfl, rfl⟩, rfl⟩

theorem Frame.csum_zero (h : Fin 2) : Frame.zero.csum h = 0 := by
  simp [Frame.csum, Frame.sumNibbles_eq, nsum]

/-- The stored sums of the zero frame are 0, as the computed ones. -/
theorem Frame.sumOk_zero (h : Fin 2) : Frame.zero.sumOk h = true := by
  simp [Frame.sumOk, Frame.csum_zero, Frame.readField]

/-- Settles O1: the reads of the zero frame, each by what its operation answers. -/
theorem resetClearsFrameRegister : Obligations.ResetClearsFrameRegister := by
  have hfr : State.reset.fr = Frame.zero := rfl
  refine ⟨fun k => ?_, fun k d => ?_, fun h d => ?_, fun a d => ?_⟩
  · rw [hfr, Frame.byte_zero]
  · simp only [exec, execFrdb, byteAddress_ofNat, hfr, Frame.byte_zero]
    exact complete_answered _ _ _
  · simp only [exec, execCsum, halfIndex_ofNat, hfr, Frame.csum_zero]
    exact complete_answered _ _ _
  · simp only [exec, execCschk, hfr, Frame.sumOk_zero]
    exact complete_answered _ _ _

/-- Settles O56: the list of responses at reset is empty. -/
theorem resetResponsesAreSound : Obligations.ResetResponsesAreSound := by
  intro r hr
  cases hr

/-! ### The step takes what is presented (R24, R50) -/

/-- Settles O2: the step executes what the first action presents, at the state that has sampled its inputs. -/
theorem stepRunsThePresentedInstruction : Obligations.StepRunsThePresentedInstruction := by
  refine ⟨fun s rest w c x h => ?_, fun s rest f h => ?_, fun s rest f h => ?_⟩ <;>
    exact ⟨_, step_of_instr h rfl, rfl, rfl, rfl, rfl, rfl⟩

/-- The action that presents something presents just that. -/
theorem actionOf_instr (s : State) (p : Presented) : (actionOf s p).instr = some (decode p) := by
  cases p <;> rfl

/-- A placed action leaves the `acs` inputs the ports carry already. -/
theorem sample_actionOf_acs (s u : State) (p : Presented) (h : u.acs = s.acs) :
    (u.sample (actionOf s p)).acs = s.acs := by
  cases p with
  | command => rfl
  | received | encoded => exact h

/-- A value of the opcode table that decodes to an instruction is presented as something that does. -/
theorem decodeTableWord_eq_some {nbits w : Nat} {i : Instr} (h : decodeTableWord nbits w = some i) :
    ∃ p, presentedTableWord nbits w = .ok p ∧ decode p = i := by
  unfold decodeTableWord at h
  split at h
  next p hp => exact ⟨p, hp, Option.some.inj h⟩
  next => cases h

theorem withFetchWord_of_presented {s : State} {nbits w : Nat} {p : Presented}
    (h : presentedTableWord nbits w = .ok p) :
    s.withFetchWord nbits w = s.withPending (actionOf s p :: s.pending) := by
  simp only [State.withFetchWord, fetchWord, h]

/-- Settles O4: the placed action is first in the list, and the step executes what it presents. -/
theorem placedWordRunsNext : Obligations.PlacedWordRunsNext := by
  intro s nbits w i h
  obtain ⟨p, hp, rfl⟩ := decodeTableWord_eq_some h
  rw [withFetchWord_of_presented hp]
  exact ⟨_, step_of_instr rfl (actionOf_instr s p), by simp, by simp, by simp, sample_actionOf_acs s _ p rfl⟩

end Sys2Proof.Machine
end

section
/-! Doing an operation twice. What a completed instruction does to the frame register is fixed by its operands
and by the ports, and it is a function that does no more when applied again; inspection and repetition (R49)
follow from that. Then the marshalling to and from transport words (R47). -/

namespace Sys2Proof.Machine

/-! ### One response, and nothing else beside the frame register (R50) -/

/-- Settles O50: a next state differs from the old one in the frame register and by one response. -/
theorem everyOperationAnswersOnce : Obligations.EveryOperationAnswersOnce := by
  intro i s t h
  obtain ⟨fr, r, rfl⟩ := exec_inv h
  exact ⟨r, rfl, rfl, rfl, rfl⟩

theorem exec_hostSideKept {i : Instr} {s t : State} (h : exec i s = .next t) : s.HostSideKept t :=
  (everyOperationAnswersOnce i s t h).elim fun _ hanswered => hanswered.2

/-! ### The writes are idempotent (R122) -/

/-- Two frames with the same bits are the same frame. -/
theorem Frame.ext_bit {fr fr' : Frame} (h : ∀ n, fr.bit n = fr'.bit n) : fr = fr' := by
  refine Frame.ext_byte fun k => BitVec.eq_of_getLsbD_eq fun i hi => ?_
  let n : Fin 128 := ⟨8 * k.val + i, by omega⟩
  have hbyte : bitByte n = k := by ext; simp only [bitByte, n]; omega
  have hpos : bitPosition n = i := by simp only [bitPosition, n]; omega
  simpa only [Frame.bit, hbyte, hpos] using h n

theorem Frame.setByte_setByte (fr : Frame) (k : Fin 16) (v : Byte) :
    (fr.setByte k v).setByte k v = fr.setByte k v := Vector.set_set ..

theorem Frame.writeField_writeField (fr : Frame) (f : Field) (v : Byte) :
    (fr.writeField f v).writeField f v = fr.writeField f v := by
  refine Frame.ext_bit fun n => ?_
  simp only [Frame.writeField_bit]
  split <;> rfl

theorem Frame.setBit_setBit (fr : Frame) (n : Fin 128) (v : Bool) :
    (fr.setBit n v).setBit n v = fr.setBit n v := by
  refine Frame.ext_bit fun m => ?_
  simp only [Frame.setBit_bit]
  split <;> rfl

/-- A mirrored frame is its own mirror: the copied bytes are not among those written (R117). -/
theorem Frame.mirror_mirror (fr : Frame) : fr.mirror.mirror = fr.mirror := by
  have hsource : fr.mirror.byte 0 = fr.byte 0 ∧ fr.mirror.byte 1 = fr.byte 1 ∧ fr.mirror.byte 2 = fr.byte 2 := by
    refine ⟨?_, ?_, ?_⟩ <;> exact Frame.mirror_byte fr (by decide) (by decide) (by decide)
  obtain ⟨h0, h1, h2⟩ := hsource
  refine Frame.ext_byte fun k => ?_
  conv_lhs => rw [Frame.mirror, h0, h1, h2]
  simp only [Frame.mirror, Frame.byte_setByte]
  split_ifs <;> rfl

/-- Storing the sums again stores the same nibbles, since the sums do not cover them (R143, R147). -/
theorem Frame.applyChecksums_applyChecksums (fr : Frame) :
    fr.applyChecksums.applyChecksums = fr.applyChecksums := by
  refine Frame.ext_byte fun k => ?_
  by_cases h7 : k = 7
  · subst h7
    apply BitVec.eq_of_toNat_eq
    rw [Frame.applyChecksums_byte_seven, Frame.applyChecksums_nibbleTotal, Frame.applyChecksums_byte_seven]
    omega
  · by_cases h15 : k = 15
    · subst h15
      apply BitVec.eq_of_toNat_eq
      rw [Frame.applyChecksums_byte_fifteen, Frame.applyChecksums_nibbleTotal,
        Frame.applyChecksums_byte_fifteen]
      omega
    · exact Frame.applyChecksums_byte _ _ h7 h15

/-! ### What an instruction does, as a function of the frame register -/

/-- With the ports of `s`, the instruction always completes: it replaces the frame register by an idempotent
function of it and gives a response that depends on the frame register alone. -/
def ActsIdempotently (i : Instr) (s : State) : Prop :=
  ∃ (f : Frame → Frame) (r : Frame → Response), (∀ fr, f (f fr) = f fr)
    ∧ ∀ t, s.HostSideKept t → exec i t = complete (f t.fr) (r t.fr) t

/-- An operation that reads no port. -/
theorem ActsIdempotently.of_complete {i : Instr} {s : State} (f : Frame → Frame) (r : Frame → Response)
    (hf : ∀ fr, f (f fr) = f fr) (h : ∀ t, exec i t = complete (f t.fr) (r t.fr) t) : ActsIdempotently i s :=
  ⟨f, r, hf, fun t _ => h t⟩

/-- An operation that keeps the frame register. -/
theorem ActsIdempotently.of_keeps {i : Instr} {s : State} (r : Frame → Response)
    (h : ∀ t, s.HostSideKept t → exec i t = complete t.fr (r t.fr) t) : ActsIdempotently i s :=
  ⟨id, r, fun _ => rfl, h⟩

/-- An operation that raises whatever the frame register holds. -/
theorem ActsIdempotently.of_raise {i : Instr} {s : State} (e : Failure)
    (h : ∀ t, s.HostSideKept t → exec i t = raise e t) : ActsIdempotently i s :=
  .of_keeps (fun _ => e.response) h

/-- An operation that loads a frame fixed by the ports. -/
theorem ActsIdempotently.of_loads {i : Instr} {s : State} (fr : Frame) (r : Response)
    (h : ∀ t, s.HostSideKept t → exec i t = complete fr r t) : ActsIdempotently i s :=
  ⟨fun _ => fr, fun _ => r, fun _ => rfl, h⟩

theorem ActsIdempotently.of_receive {i : Instr} {s : State} (fr : Frame) (mode : Option AbsMode)
    (h : ∀ t, s.HostSideKept t → exec i t = receive fr mode t) : ActsIdempotently i s :=
  .of_loads fr (receptionResponse fr mode) fun t ht => (h t ht).trans (receive_next fr mode t)

/-! The operations without an index operand, as functions of the frame register. -/

/-- The response of `FPACK` (R118). -/
def packedResponse (fr : Frame) : Response :=
  { Response.ok 0 with tx := some { valid := false, w0 := fr.word 0, w1 := fr.word 1 } }

theorem exec_fpack (a d : Byte) (s : State) : exec (.fpack a d) s = complete s.fr (packedResponse s.fr) s := rfl

theorem exec_funpack (a d : Byte) (s : State) :
    exec (.funpack a d) s = complete (unpack s.rx.w0 s.rx.w1) (.ok 0) s := rfl

theorem fpack_actsIdempotently (a d : Byte) (s : State) : ActsIdempotently (.fpack a d) s :=
  .of_keeps packedResponse fun t _ => exec_fpack a d t

theorem cschk_actsIdempotently (a d : Byte) (s : State) : ActsIdempotently (.cschk a d) s :=
  .of_keeps (fun fr => .ok (0#6 ++ BitVec.ofBool (fr.sumOk 1) ++ BitVec.ofBool (fr.sumOk 0))) fun _ _ => rfl

theorem fclr_actsIdempotently (a d : Byte) (s : State) : ActsIdempotently (.fclr a d) s :=
  .of_loads Frame.zero (.ok 0) fun _ _ => rfl

theorem fmirror_actsIdempotently (a d : Byte) (s : State) : ActsIdempotently (.fmirror a d) s :=
  .of_complete Frame.mirror (fun _ => .ok 0) Frame.mirror_mirror fun _ => rfl

theorem csapply_actsIdempotently (a d : Byte) (s : State) : ActsIdempotently (.csapply a d) s :=
  .of_complete Frame.applyChecksums (fun _ => .ok 0) Frame.applyChecksums_applyChecksums fun _ => rfl

/-! The operations with an index operand act when it is in range, and raise when it is not (R223). -/

theorem frdb_actsIdempotently (a d : Byte) (s : State) : ActsIdempotently (.frdb a d) s := by
  cases hk : byteAddress a with
  | none => exact .of_raise .badOperand fun t _ => by simp only [exec, execFrdb, hk]
  | some k => exact .of_keeps (fun fr => .ok (fr.byte k)) fun t _ => by simp only [exec, execFrdb, hk]

theorem frdf_actsIdempotently (a d : Byte) (s : State) : ActsIdempotently (.frdf a d) s := by
  cases hf : fieldId a with
  | none => exact .of_raise .badOperand fun t _ => by simp only [exec, execFrdf, hf]
  | some f => exact .of_keeps (fun fr => .ok (fr.readField f)) fun t _ => by simp only [exec, execFrdf, hf]

theorem frdbit_actsIdempotently (a d : Byte) (s : State) : ActsIdempotently (.frdbit a d) s := by
  cases hn : bitAddress a with
  | none => exact .of_raise .badOperand fun t _ => by simp only [exec, execFrdbit, hn]
  | some n =>
    exact .of_keeps (fun fr => .ok ((BitVec.ofBool (fr.bit n)).setWidth 8)) fun t _ => by
      simp only [exec, execFrdbit, hn]

theorem csum_actsIdempotently (a d : Byte) (s : State) : ActsIdempotently (.csum a d) s := by
  cases hh : halfIndex a with
  | none => exact .of_raise .badOperand fun t _ => by simp only [exec, execCsum, hh]
  | some h =>
    exact .of_keeps (fun fr => .ok ((fr.csum h).setWidth 8)) fun t _ => by simp only [exec, execCsum, hh]

theorem fwrb_actsIdempotently (a d : Byte) (s : State) : ActsIdempotently (.fwrb a d) s := by
  cases hk : byteAddress a with
  | none => exact .of_raise .badOperand fun t _ => by simp only [exec, execFwrb, hk]
  | some k =>
    exact .of_complete (·.setByte k d) (fun _ => .ok 0) (·.setByte_setByte k d) fun t => by
      simp only [exec, execFwrb, hk]

theorem fwrf_actsIdempotently (a d : Byte) (s : State) : ActsIdempotently (.fwrf a d) s := by
  cases hf : fieldId a with
  | none => exact .of_raise .badOperand fun t _ => by simp only [exec, execFwrf, hf]
  | some f =>
    exact .of_complete (·.writeField f d) (fun _ => .ok 0) (·.writeField_writeField f d) fun t => by
      simp only [exec, execFwrf, hf]

theorem fwrbit_actsIdempotently (a d : Byte) (s : State) : ActsIdempotently (.fwrbit a d) s := by
  cases hn : bitAddress a with
  | none => exact .of_raise .badOperand fun t _ => by simp only [exec, execFwrbit, hn]
  | some n =>
    exact .of_complete (·.setBit n (d.getLsbD 0)) (fun _ => .ok 0) (·.setBit_setBit n (d.getLsbD 0)) fun t => by
      simp only [exec, execFwrbit, hn]

/-! The operations that read the ports. -/

theorem decode_actsIdempotently (a d : Byte) (s : State) : ActsIdempotently (.decode a d) s := by
  rcases Nat.lt_or_ge s.rx.n.toNat 2 with hshort | henough
  · exact .of_raise .unhandledShort fun t ⟨_, hrx, _⟩ => exec_decode_short a d t (hrx ▸ hshort)
  · let fr := unpack s.rx.w0 s.rx.w1
    refine .of_receive fr (decodedMode fr) fun t ⟨_, hrx, _⟩ => ?_
    simp only [exec_decode a d t (hrx ▸ henough), hrx, fr]

theorem funpack_actsIdempotently (a d : Byte) (s : State) : ActsIdempotently (.funpack a d) s :=
  .of_loads (unpack s.rx.w0 s.rx.w1) (.ok 0) fun t ⟨_, hrx, _⟩ => by rw [exec_funpack, hrx]

theorem encode_actsIdempotently {a d : Byte} {s t : State} (h : exec (.encode a d) s = .next t) :
    ActsIdempotently (.encode a d) s := by
  cases hm : AbsMode.ofCode s.acs.mode with
  | none => simp only [exec, execEncode, hm] at h; cases h
  | some m =>
    cases htemp : temperatureInContract s.acs.temp with
    | false => simp only [exec, execEncode, hm, htemp] at h; cases h
    | true =>
      let fr := encodeFrame Config.swingVWired m s.acs.temp s.acs.fanMode (AbsSwing.ofCode s.acs.swing) s.acs.light
      refine .of_loads fr { Response.ok 0 with tx := some ⟨true, fr.word 0, fr.word 1⟩ } fun u ⟨hacs, _, _⟩ => ?_
      simp only [exec, execEncode, hacs, hm, htemp, if_true, fr]

theorem adjust_actsIdempotently {a d : Byte} {s t : State} (h : exec (.adjust a d) s = .next t) :
    ActsIdempotently (.adjust a d) s := by
  cases hm : AbsMode.ofCode s.acs.mode with
  | none => simp only [exec, execAdjust, hm] at h; cases h
  | some m =>
    let adj : Adj := ⟨(adjustSwing m (AbsSwing.ofCode s.acs.swing)).code, adjustTemp m s.acs.temp⟩
    refine .of_keeps (fun _ => { Response.ok 0 with adj := some adj }) fun u ⟨hacs, _, _⟩ => ?_
    simp only [exec_adjust a d u m (hacs ▸ hm), hacs, adj]

/-- Every instruction that completes acts idempotently on the frame register (R49, R122). -/
theorem exec_actsIdempotently {i : Instr} {s t : State} (h : exec i s = .next t) : ActsIdempotently i s := by
  cases i with
  | frdb a d => exact frdb_actsIdempotently a d s
  | frdf a d => exact frdf_actsIdempotently a d s
  | frdbit a d => exact frdbit_actsIdempotently a d s
  | csum a d => exact csum_actsIdempotently a d s
  | fwrb a d => exact fwrb_actsIdempotently a d s
  | fwrf a d => exact fwrf_actsIdempotently a d s
  | fwrbit a d => exact fwrbit_actsIdempotently a d s
  | fpack a d => exact fpack_actsIdempotently a d s
  | cschk a d => exact cschk_actsIdempotently a d s
  | fclr a d => exact fclr_actsIdempotently a d s
  | fmirror a d => exact fmirror_actsIdempotently a d s
  | csapply a d => exact csapply_actsIdempotently a d s
  | funpack a d => exact funpack_actsIdempotently a d s
  | encode => exact encode_actsIdempotently h
  | adjust => exact adjust_actsIdempotently h
  | decode a d => exact decode_actsIdempotently a d s
  | acOff | acAuto | acCool | acDry | acFan | acHeat | acRsv5 | acRsv6 | acRsv7 | cfEncoded =>
    exact .of_receive _ _ fun _ _ => rfl

/-! ### Inspection and repetition (R49) -/

/-- Repeated on the ports it left, an instruction that completed completes again and leaves the same frame
register; if that is also the one it started from, it answers the same. -/
theorem exec_again {i : Instr} {s t : State} (h : exec i s = .next t) :
    ∃ u, exec i t = .next u ∧ u.fr = t.fr ∧ (t.fr = s.fr → u.lastResponse = t.lastResponse) := by
  obtain ⟨f, r, hf, hact⟩ := exec_actsIdempotently h
  have ht : t = (s.setFr (f s.fr)).respond (r s.fr) :=
    Host.Outcome.next.inj (h.symm.trans (hact s ⟨rfl, rfl, rfl⟩))
  refine ⟨_, hact t (exec_hostSideKept h), ?_, fun hkept => ?_⟩
  · simp [ht, hf]
  · rw [hkept, ht, State.lastResponse_respond, State.lastResponse_respond]

/-- Settles O24: what the instruction does to the frame register does no more when applied again. -/
theorem repeatingLeavesTheSameFrame : Obligations.RepeatingLeavesTheSameFrame := by
  intro i s t h
  obtain ⟨u, hu, hfr, -⟩ := exec_again h
  exact ⟨u, hu, hfr⟩

/-- Settles O23: an inspection keeps the frame register, so its repetition reads what it read. -/
theorem inspectionHasNoSideEffect : Obligations.InspectionHasNoSideEffect := by
  intro i s t hi h
  have hkept : t.fr = s.fr := exec_fr_of_inspects h hi
  obtain ⟨u, hu, hfr, hresponse⟩ := exec_again h
  exact ⟨hkept, u, hu, hfr.trans hkept, hresponse hkept⟩

/-! ### Marshalling (R47) -/

/-- `FPACK` after `FUNPACK` drives the words that were received. -/
theorem fpack_after_funpack {s t : State} {a d : Byte} (a' d' : Byte) (h : exec (.funpack a d) s = .next t) :
    ∃ u r, exec (.fpack a' d') t = .next u ∧ u.lastResponse = some r
      ∧ r.tx = some { valid := false, w0 := s.rx.w0, w1 := s.rx.w1 } := by
  have hfr : t.fr = unpack s.rx.w0 s.rx.w1 := complete_fr h
  obtain ⟨hw0, hw1⟩ := word_unpack s.rx.w0 s.rx.w1
  refine ⟨_, _, exec_fpack a' d' t, State.lastResponse_respond _ _, ?_⟩
  simp only [packedResponse, hfr, hw0, hw1]

/-- The words `FPACK` drives are those of the frame register. -/
theorem fpack_words {s t : State} {a d : Byte} {r : Response} {x : Tx} (h : exec (.fpack a d) s = .next t)
    (hr : t.lastResponse = some r) (hx : r.tx = some x) : x.w0 = s.fr.word 0 ∧ x.w1 = s.fr.word 1 := by
  cases h
  rw [State.lastResponse_respond] at hr
  cases hr
  cases hx
  exact ⟨rfl, rfl⟩

/-- Settles O21: `unpack` and `word` are inverse in both directions. -/
theorem packAndUnpackAreInverse : Obligations.PackAndUnpackAreInverse := by
  refine ⟨fun s t a d a' d' h => fpack_after_funpack a' d' h, ?_⟩
  intro s t u a d a' d' r x h hr hx hu0 hu1
  obtain ⟨hx0, hx1⟩ := fpack_words h hr hx
  refine ⟨_, exec_funpack a' d' u, ?_⟩
  rw [hu0, hu1, hx0, hx1]
  exact unpack_word s.fr

end Sys2Proof.Machine
end

section
/-! The decoder and the encoder undo each other (R83, R90 to R93). The round trip from an instruction is proved
constructor by constructor; the one from a word rests on a word being put together again from the selectors that
chose its row. Every other statement here names an instruction's encoding and takes the round trip. -/

namespace Sys2Proof

/-! ### From an instruction to its word and back -/

/-- Settles O7: a command word is decoded from its three fields, a class frame from `Power`, `Mode` and the rest,
a pattern frame from its letters. -/
theorem decodeUndoesEncode : Obligations.DecodeUndoesEncode := by
  intro i hwf
  cases i with
  | fclr | frdb | fwrb | frdf | fwrf | frdbit | fwrbit | fmirror | fpack | funpack | csum | csapply | cschk
  | encode | decode =>
    simp only [encode, decode, decodeCommand, cwOp_append, cwA_append, cwD_append]
  | adjust =>
    simp only [encode, decode, decodeCommand, cwOp_append, cwA_append, cwD_append]
    rfl
  | acOff | acAuto | acCool | acDry | acFan | acHeat | acRsv5 | acRsv6 | acRsv7 =>
    exact decodeReceived_classBits _ _ _
  | cfEncoded m p f t l v s1 s2 =>
    simp only [encode, decode, decodeEncoded, encodedLetters_encodedBits, hwf, and_self, if_true]

/-- Only the encoded pattern restricts an operand (R83, R94, R97). -/
theorem wellFormed_of_encode_ne_encoded {i : Instr} (h : ∀ f, encode i ≠ .encoded f) : WellFormed i = true := by
  cases i with
  | cfEncoded => exact absurd rfl (h _)
  | _ => rfl

/-- What encodes a command word is what the word decodes to. -/
theorem decode_command_of_encode {i : Instr} {w : CommandWord} (h : encode i = .command w) :
    decode (.command w) = i := by
  rw [← h]
  exact decodeUndoesEncode i (wellFormed_of_encode_ne_encoded fun f hf => by cases h.symm.trans hf)

/-- What encodes a received frame is what the frame decodes to. -/
theorem decode_received_of_encode {i : Instr} {f : FrameBits} (h : encode i = .received f) :
    decode (.received f) = i := by
  rw [← h]
  exact decodeUndoesEncode i (wellFormed_of_encode_ne_encoded fun g hg => by cases h.symm.trans hg)

/-! ### From a word to its instruction and back -/

/-- A command word is its operation select and its two operands (R90). -/
theorem append_of_cwOp_eq {w : CommandWord} {op : BitVec 4} (h : cwOp w = op) :
    ((op ++ cwA w ++ cwD w).cast rfl : CommandWord) = w := h ▸ append_command w

/-- Every command word is the encoding of the operation it selects (R91, R94). -/
theorem encode_decodeCommand (w : CommandWord) : encode (decodeCommand w) = .command w := by
  unfold decodeCommand
  split
  case h_16 =>
    have hop : cwOp w = 0xF#4 := by
      simp only [imp_false] at *
      bv_omega
    exact congrArg Presented.command (append_of_cwOp_eq hop)
  all_goals exact congrArg Presented.command (append_of_cwOp_eq ‹_›)

/-- A frame is the selectors of its class and the rest (R93). -/
theorem classBits_of_selectors {f : FrameBits} {p : BitVec 1} {m : BitVec 3} (hp : framePower f = p)
    (hm : frameMode f = m) : classBits p m (frameRest f) = f := hp ▸ hm ▸ classBits_parts f

/-- Every frame is the encoding of its class (R93). -/
theorem encode_decodeReceived (f : FrameBits) : encode (decodeReceived f) = .received f := by
  unfold decodeReceived
  split
  next hp => exact congrArg Presented.received (classBits_of_selectors (BitVec.toFin_inj.mp hp) rfl)
  next hp =>
    split <;> next hm =>
      exact congrArg Presented.received
        (classBits_of_selectors (BitVec.toFin_inj.mp hp) (BitVec.toFin_inj.mp hm))

/-- A frame handed back is the encoding of what it decodes to, as the pattern or by its class (log entry 7). -/
theorem encode_decodeEncoded (f : FrameBits) :
    encode (decodeEncoded f) = .received f ∨ encode (decodeEncoded f) = .encoded f := by
  unfold decodeEncoded
  split
  next h => exact .inr h.1
  next => exact .inl (encode_decodeReceived f)

/-- Whatever is presented, what it decodes to is well-formed. -/
theorem wellFormed_decode (p : Presented) : WellFormed (decode p) = true := by
  have hreceived (f : FrameBits) : WellFormed (decodeReceived f) = true :=
    wellFormed_of_encode_ne_encoded fun g hg => by cases (encode_decodeReceived f).symm.trans hg
  cases p with
  | command w => exact wellFormed_of_encode_ne_encoded fun f hf => by cases (encode_decodeCommand w).symm.trans hf
  | received f => exact hreceived f
  | encoded f =>
    simp only [decode, decodeEncoded]
    split
    next h => exact h.2
    next => exact hreceived f

/-- Settles O8: a word is put together again from the selectors that chose its row and the operands kept. -/
theorem encodeUndoesDecode : Obligations.EncodeUndoesDecode :=
  ⟨encode_decodeCommand, encode_decodeReceived, wellFormed_decode⟩

/-! ### The rows by their match and mask (R91, R93) -/

theorem framePower_and (f g : FrameBits) : framePower (f &&& g) = framePower f &&& framePower g :=
  BitVec.extractLsb'_and

theorem frameMode_and (f g : FrameBits) : frameMode (f &&& g) = frameMode f &&& frameMode g :=
  BitVec.extractLsb'_and

/-- A masked frame has the frame's `Power` when the mask covers it. -/
theorem framePower_of_and_eq {f mask c : FrameBits} (h : f &&& mask = c) (hmask : framePower mask = 1) :
    framePower f = framePower c := by
  rw [← h, framePower_and, hmask]
  exact BitVec.and_allOnes.symm

/-- A masked frame has the frame's `Mode` when the mask covers it. -/
theorem frameMode_of_and_eq {f mask c : FrameBits} (h : f &&& mask = c) (hmask : frameMode mask = 7) :
    frameMode f = frameMode c := by
  rw [← h, frameMode_and, hmask]
  exact BitVec.and_allOnes.symm

/-- A frame under the mask of `AC.OFF`. -/
theorem received_off_class {f : FrameBits} (h : f &&& 0x8#128 = 0x0#128) :
    ∃ m r, decode (.received f) = .acOff m r ∧ encode (.acOff m r) = .received f := by
  have hp : framePower f = 0 := framePower_of_and_eq h rfl
  have henc : encode (.acOff (frameMode f) (frameRest f)) = .received f :=
    congrArg Presented.received (classBits_of_selectors hp rfl)
  exact ⟨_, _, decode_received_of_encode henc, henc⟩

/-- A frame under the mask of a class with `Power` on: the match `c` fixes `Power` and `Mode`. -/
theorem received_on_class {f c : FrameBits} {m : BitVec 3} (i : BitVec 124 → Instr)
    (hi : ∀ r, encode (i r) = .received (classBits 1 m r)) (h : f &&& 0xF#128 = c) (hp : framePower c = 1)
    (hm : frameMode c = m) : ∃ r, decode (.received f) = i r ∧ encode (i r) = .received f := by
  have henc : encode (i (frameRest f)) = .received f := by
    rw [hi, classBits_of_selectors ((framePower_of_and_eq h rfl).trans hp) ((frameMode_of_and_eq h rfl).trans hm)]
  exact ⟨_, decode_received_of_encode henc, henc⟩

/-- Settles O6: match and mask of a row fix `Power` and `Mode`, and the rest is the operand. -/
theorem receivedFrameHasItsClass : Obligations.ReceivedFrameHasItsClass := by
  intro f
  exact ⟨received_off_class,
    fun h => received_on_class .acAuto (fun _ => rfl) h rfl rfl,
    fun h => received_on_class .acCool (fun _ => rfl) h rfl rfl,
    fun h => received_on_class .acDry (fun _ => rfl) h rfl rfl,
    fun h => received_on_class .acFan (fun _ => rfl) h rfl rfl,
    fun h => received_on_class .acHeat (fun _ => rfl) h rfl rfl,
    fun h => received_on_class .acRsv5 (fun _ => rfl) h rfl rfl,
    fun h => received_on_class .acRsv6 (fun _ => rfl) h rfl rfl,
    fun h => received_on_class .acRsv7 (fun _ => rfl) h rfl rfl⟩

/-- The command word built by shifts is the one built by its fields (R90). -/
theorem commandWord_eq_append (op : BitVec 4) (a d : Byte) :
    Machine.commandWord op.toNat a d = (op ++ a ++ d).cast rfl := by
  apply BitVec.eq_of_toNat_eq
  have hop := op.isLt
  have ha := a.isLt
  have hd := d.isLt
  simp only [Machine.commandWord, BitVec.toNat_ofNat, BitVec.toNat_cast, BitVec.toNat_append,
    ← Nat.shiftLeft_add_eq_or_of_lt ha, ← Nat.shiftLeft_add_eq_or_of_lt hd]
  omega

/-- A command word decodes to the operation that its `op` encodes. -/
theorem decode_commandWord (op : BitVec 4) {a d : Byte} {i : Instr}
    (h : encode i = .command ((op ++ a ++ d).cast rfl)) :
    decode (.command (Machine.commandWord op.toNat a d)) = i :=
  commandWord_eq_append op a d ▸ decode_command_of_encode h

/-- Settles O5: the word's fields are those of the operation's encoding. -/
theorem opSelectsTheOperation : Obligations.OpSelectsTheOperation := by
  intro a d
  exact ⟨decode_commandWord 0x0 rfl, decode_commandWord 0x1 rfl, decode_commandWord 0x2 rfl,
    decode_commandWord 0x3 rfl, decode_commandWord 0x4 rfl, decode_commandWord 0x5 rfl,
    decode_commandWord 0x6 rfl, decode_commandWord 0x7 rfl, decode_commandWord 0x8 rfl,
    decode_commandWord 0x9 rfl, decode_commandWord 0xA rfl, decode_commandWord 0xB rfl,
    decode_commandWord 0xC rfl, decode_commandWord 0xD rfl, decode_commandWord 0xE rfl,
    decode_commandWord 0xF rfl⟩

/-- Settles O9: each literal is the encoding of its instruction. -/
theorem wordsOfTheSpecDecode : Obligations.WordsOfTheSpecDecode :=
  ⟨decode_command_of_encode rfl, decode_command_of_encode rfl, decode_command_of_encode rfl,
    decode_command_of_encode rfl, decode_command_of_encode rfl, decode_received_of_encode rfl,
    decode_received_of_encode rfl, decodeUndoesEncode (.cfEncoded 1 1 3 8 1 0 0xB 0xD) rfl⟩

end Sys2Proof
end

section
/-! A presented frame is received like the two words of a `DECODE` (R93, R190, R212): an instruction whose
encoding is a frame executes as the reception of that frame, its mode read off the frame's own fields. -/

namespace Sys2Proof.Machine

/-! ### The fields of a frame given by its bits (R73) -/

/-- A field of half-frame 0 or 1 is the frame's bits at the field's bit address. -/
theorem Frame.readField_ofBits (f : FrameBits) (fld : Field) :
    (Frame.ofBits f).readField fld = (f.extractLsb' (8 * fld.byte.val + fld.lo) fld.width).setWidth 8 := by
  have hw := fld.lo_add_width_le
  apply BitVec.eq_of_getLsbD_eq
  intro i hi
  rw [Frame.readField_getLsbD, Frame.ofBits_byte]
  by_cases hin : i < fld.width
  · have hlt : fld.lo + i < 8 := by omega
    simp [hin, hi, hlt, Nat.add_assoc]
  · simp [hin]

/-- The mode result of a frame by its `Power` and `Mode` (R196 to R198). -/
theorem decodedMode_ofBits (f : FrameBits) : decodedMode (Frame.ofBits f) =
    if (framePower f).setWidth 8 = 0#8 then some .off
    else (DevMode.ofCode ((frameMode f).setWidth 8)).map absMode := by
  have hpower : (Frame.ofBits f).readField .power = (framePower f).setWidth 8 := Frame.readField_ofBits f .power
  have hmode : (Frame.ofBits f).readField .mode = (frameMode f).setWidth 8 := Frame.readField_ofBits f .mode
  unfold decodedMode
  rw [hpower, hmode]
  cases DevMode.ofCode ((frameMode f).setWidth 8) <;> rfl

/-- The mode result of a frame of a class (R205 to R211). -/
theorem decodedMode_classBits (p : BitVec 1) (m : BitVec 3) (r : BitVec 124) :
    decodedMode (Frame.ofBits (classBits p m r)) =
      if p.setWidth 8 = 0#8 then some .off else (DevMode.ofCode (m.setWidth 8)).map absMode := by
  rw [decodedMode_ofBits, framePower_classBits, frameMode_classBits]

/-- The mode code delivered, by the device codes (R84, R196 to R198). -/
theorem decodedMode_ofBits_code (f : FrameBits) : (decodedMode (Frame.ofBits f)).map AbsMode.code =
    if framePower f = 0 then some 0 else if frameMode f = 0 then some 5
    else if (frameMode f).toNat ≤ 4 then some (frameMode f) else none := by
  have key : ∀ (p : BitVec 1) (m : BitVec 3),
      (if p.setWidth 8 = 0#8 then some AbsMode.off
        else (DevMode.ofCode (m.setWidth 8)).map absMode).map AbsMode.code =
      if p = 0 then some 0 else if m = 0 then some 5 else if m.toNat ≤ 4 then some m else none := by decide
  rw [decodedMode_ofBits]
  exact key _ _

/-! ### To present a frame is to receive it -/

/-- The class instructions name the mode that the fields of their frames give (R205 to R211). -/
theorem exec_of_encode_received {i : Instr} {f : FrameBits} (h : encode i = .received f) (s : State) :
    exec i s = receive (Frame.ofBits f) (decodedMode (Frame.ofBits f)) s := by
  cases i with
  | acOff | acAuto | acCool | acDry | acFan | acHeat | acRsv5 | acRsv6 | acRsv7 =>
    cases h
    rw [decodedMode_classBits]
    rfl
  | _ => cases h

/-- An encoded frame handed back is interpreted from its fields (R212). -/
theorem exec_of_encode_encoded {i : Instr} {f : FrameBits} (h : encode i = .encoded f) (s : State) :
    exec i s = receive (Frame.ofBits f) (decodedMode (Frame.ofBits f)) s := by
  cases i with
  | cfEncoded => cases h; rfl
  | _ => cases h

/-- `DECODE` of a frame's two words is the reception of the frame (R45, R192). -/
theorem exec_decode_of_words {s : State} {f : FrameBits} (a d : Byte) (hn : 2 ≤ s.rx.n.toNat)
    (h0 : s.rx.w0 = bitsWord0 f) (h1 : s.rx.w1 = bitsWord1 f) :
    exec (.decode a d) s = receive (Frame.ofBits f) (decodedMode (Frame.ofBits f)) s := by
  rw [exec_decode a d s hn, h0, h1]
  rfl

/-- Settles O44: every presentation of a frame and `DECODE` of its words are the same reception. -/
theorem frameClassesRefineDecode : Obligations.FrameClassesRefineDecode := by
  intro f a d s hn h0 h1
  rw [exec_decode_of_words a d hn h0 h1]
  refine ⟨exec_of_encode_received (encode_decodeReceived f) s, ?_⟩
  obtain h | h := encode_decodeEncoded f
  · exact exec_of_encode_received h s
  · exact exec_of_encode_encoded h s

/-! ### What a valid presented frame delivers -/

/-- The reception of a checksum-valid frame delivers its mode code, its temperature bits and its fan bits (R198 to
R201). -/
theorem deliversFrame_of_receive {i : Instr} {f : FrameBits} {mode : Option AbsMode} {s : State}
    (hexec : exec i s = receive (Frame.ofBits f) mode s) (hvalid : (Frame.ofBits f).Valid) :
    DeliversFrame i f (mode.map AbsMode.code) s := by
  have htemp : decodedTemp (Frame.ofBits f) = (f.extractLsb' 8 4).setWidth 8 + 16 :=
    congrArg (· + Config.tempOffset) (Frame.readField_ofBits f .temp)
  have hfan : (decodedFan (Frame.ofBits f)).code = f.extractLsb' 4 2 := by
    rw [decodedFan_code, Frame.ofBits_byte]
    exact BitVec.extractLsb'_extractLsb'_of_le (by decide)
  rw [receive_next, receptionResponse, if_pos ((Frame.checksumValid_iff _).mpr hvalid)] at hexec
  refine ⟨_, _, hexec, Frame.ofBits_bit f, ⟨rfl, rfl, rfl, rfl⟩, rfl, ?_, fun m hm => hm, ?_, ?_⟩
  · simp [updateOf]
  · simp only [updateOf, htemp]
  · simp only [updateOf, hfan]

/-- Settles O42: the pattern's frame is received, and its letters `P` and `M` are the frame's `Power` and `Mode`. -/
theorem encodedPatternIsDecoded : Obligations.EncodedPatternIsDecoded := by
  intro m p fan t l v s1 s2 s f h hvalid
  have hletters : encodedLetters f = .cfEncoded m p fan t l v s1 s2 := by
    cases h; exact encodedLetters_encodedBits m p fan t l v s1 s2
  obtain ⟨hm, hp, -⟩ : frameMode f = m ∧ framePower f = p ∧ _ := Instr.cfEncoded.inj hletters
  have hdelivers := deliversFrame_of_receive (exec_of_encode_encoded h s) hvalid
  rwa [decodedMode_ofBits_code, hm, hp] at hdelivers

end Sys2Proof.Machine
end

section
/-! The ten frame model operations (R110 to R122). An indexed operation ends by what its index operand names: a byte,
a field or a bit when it is in range, `BAD_OPERAND` when it is not; what it leaves in the frame register is then a
fact about one view of the frame. -/

namespace Sys2Proof.Machine

/-! ### The index operands (R92) -/

theorem byteAddress_of_lt {a : Byte} (h : a.toNat < 16) : byteAddress a = some ⟨a.toNat, h⟩ := dif_pos h

theorem byteAddress_of_ge {a : Byte} (h : 16 ≤ a.toNat) : byteAddress a = none := dif_neg (Nat.not_lt.mpr h)

theorem bitAddress_of_lt {a : Byte} (h : a.toNat < 128) : bitAddress a = some ⟨a.toNat, h⟩ := dif_pos h

theorem bitAddress_of_ge {a : Byte} (h : 128 ≤ a.toNat) : bitAddress a = none := dif_neg (Nat.not_lt.mpr h)

/-- The identifier of a field is its place in the order of R43. -/
theorem toNat_of_fieldId {a : Byte} {f : Field} (h : fieldId a = some f) : a.toNat = f.ctorIdx := by
  unfold fieldId at h
  split at h <;> cases h <;> assumption

/-- No field has two identifiers. -/
theorem fieldId_injective {a b : Byte} {f : Field} (ha : fieldId a = some f) (hb : fieldId b = some f) : a = b :=
  BitVec.eq_of_toNat_eq ((toNat_of_fieldId ha).trans (toNat_of_fieldId hb).symm)

/-- Settles O10: identifiers up to 14 name a field and no others do; the fifteen rows are evaluated. -/
theorem fieldTable : Obligations.FieldTable := by
  refine ⟨fun a => ⟨fun h => Option.isSome_iff_exists.mpr (fieldId_some h), fun h => ?_⟩, by decide⟩
  by_contra hgt
  simp [fieldId_none (Nat.lt_of_not_le hgt)] at h

/-! ### What an indexed operation does when its operand names something -/

section
variable {a : Byte} (d : Byte) (s : State)

theorem exec_frdb {k : Fin 16} (h : byteAddress a = some k) :
    exec (.frdb a d) s = complete s.fr (.ok (s.fr.byte k)) s := by simp only [exec, execFrdb, h]

theorem exec_fwrb {k : Fin 16} (h : byteAddress a = some k) :
    exec (.fwrb a d) s = complete (s.fr.setByte k d) (.ok 0) s := by simp only [exec, execFwrb, h]

theorem exec_frdf {f : Field} (h : fieldId a = some f) :
    exec (.frdf a d) s = complete s.fr (.ok (s.fr.readField f)) s := by simp only [exec, execFrdf, h]

theorem exec_fwrf {f : Field} (h : fieldId a = some f) :
    exec (.fwrf a d) s = complete (s.fr.writeField f d) (.ok 0) s := by simp only [exec, execFwrf, h]

theorem exec_frdbit {n : Fin 128} (h : bitAddress a = some n) :
    exec (.frdbit a d) s = complete s.fr (.ok ((BitVec.ofBool (s.fr.bit n)).setWidth 8)) s := by
  simp only [exec, execFrdbit, h]

theorem exec_fwrbit {n : Fin 128} (h : bitAddress a = some n) :
    exec (.fwrbit a d) s = complete (s.fr.setBit n (d.getLsbD 0)) (.ok 0) s := by simp only [exec, execFwrbit, h]

end

/-- The state a completion leaves has answered. -/
theorem State.answered_complete (s : State) (fr : Frame) (r : Response) : s.Answered ((s.setFr fr).respond r) r :=
  ⟨rfl, rfl, rfl, rfl⟩

/-- To raise `BAD_OPERAND` is to answer it (R223, R230). -/
theorem answersBadOperand_of_raise {i : Instr} {s : State} (h : exec i s = raise .badOperand s) :
    AnswersBadOperand i s := ⟨_, h, rfl, s.answered_complete _ _⟩

/-! ### The byte operations (R110 to R112) -/

/-- Settles O11: `FCLR` completes with the zero frame. -/
theorem fclrClearsTheFrame : Obligations.FclrClearsTheFrame := by
  intro a d s
  exact ⟨decode_commandWord 0x0 rfl, _, rfl, Frame.byte_zero, s.answered_complete _ _⟩

/-- Settles O12: the operand is the byte address, or there is none. -/
theorem frdbReadsItsByte : Obligations.FrdbReadsItsByte := by
  intro a d s
  refine ⟨decode_commandWord 0x1 rfl, fun h => ?_, fun h => ?_⟩
  · exact ⟨_, exec_frdb d s (byteAddress_of_lt h), rfl, s.answered_complete _ _⟩
  · exact answersBadOperand_of_raise (by simp only [exec, execFrdb, byteAddress_of_ge h])

/-- The fields of a byte just written read their bits of the value (R122 c). -/
theorem Frame.readField_setByte (fr : Frame) (f : Field) (v : Byte) :
    ((fr.setByte f.byte v).readField f).toNat = v.toNat / 2 ^ f.lo % 2 ^ f.width := by
  rw [Frame.readField_toNat, Frame.byte_setByte, if_pos rfl]

/-- Settles O13: the byte view of the write, and the fields read off the byte written. -/
theorem fwrbWritesItsByte : Obligations.FwrbWritesItsByte := by
  intro a d s
  refine ⟨decode_commandWord 0x2 rfl, fun h => ?_, fun h => ?_⟩
  · refine ⟨_, exec_fwrb d s (byteAddress_of_lt h), fun j => ?_, fun f hf => ?_, s.answered_complete _ _⟩
    · simp [Frame.byte_setByte, Fin.ext_iff, eq_comm]
    · have hbyte : ⟨a.toNat, h⟩ = f.byte := Fin.ext hf.symm
      exact hbyte ▸ s.fr.readField_setByte f d
  · exact answersBadOperand_of_raise (by simp only [exec, execFwrb, byteAddress_of_ge h])

/-! ### The field operations (R113, R114, R122) -/

/-- Settles O14: the field read as a number is the shifted byte modulo the field's width. -/
theorem frdfReadsItsField : Obligations.FrdfReadsItsField := by
  intro a d s
  refine ⟨decode_commandWord 0x3 rfl, fun h => ?_, fun h => ?_⟩
  · obtain ⟨f, hf⟩ := fieldId_some h
    exact ⟨f, hf, _, _, exec_frdf d s hf, rfl, s.answered_complete _ _, s.fr.readField_toNat f⟩
  · exact answersBadOperand_of_raise (by simp only [exec, execFrdf, fieldId_none h])

/-- Settles O15: the bits of the frame after a field write. -/
theorem fwrfWritesItsField : Obligations.FwrfWritesItsField := by
  intro a d s
  refine ⟨decode_commandWord 0x4 rfl, fun h => ?_, fun h => ?_⟩
  · obtain ⟨f, hf⟩ := fieldId_some h
    exact ⟨f, hf, _, exec_fwrf d s hf, s.fr.writeField_bit f d, s.answered_complete _ _⟩
  · exact answersBadOperand_of_raise (by simp only [exec, execFwrf, fieldId_none h])

/-- A written field reads the value's low bits (R122 a). -/
theorem Frame.readField_writeField_same (fr : Frame) (f : Field) (v : Byte) :
    (fr.writeField f v).readField f = (v.setWidth f.width).setWidth 8 := by
  have hplace := f.lo_add_width_le
  apply BitVec.eq_of_getLsbD_eq
  intro i hi
  by_cases hin : i < f.width
  · have hbyte : f.lo + i < 8 := by omega
    rw [Frame.readField_getLsbD, Frame.writeField_getLsbD _ _ _ _ hbyte]
    simp [hin, hi]
  · simp [Frame.readField_getLsbD, hin]

theorem Frame.readField_writeField_same_toNat (fr : Frame) (f : Field) (v : Byte) :
    ((fr.writeField f v).readField f).toNat = v.toNat % 2 ^ f.width := by
  have hwidth : f.width ≤ 8 := by have := f.lo_add_width_le; omega
  rw [Frame.readField_writeField_same, BitVec.toNat_setWidth_of_le hwidth, BitVec.toNat_setWidth]

/-- A field write leaves every other field: it is in another byte, or beside the written bits (R122 b). -/
theorem Frame.readField_writeField_ne (fr : Frame) {f g : Field} (v : Byte) (h : f ≠ g) :
    (fr.writeField f v).readField g = fr.readField g := by
  rcases Field.disjoint h with hbyte | hbeside
  · exact Frame.readField_congr (fr.writeField_byte_ne f v g.byte hbyte)
  · have hplace := g.lo_add_width_le
    apply BitVec.eq_of_getLsbD_eq
    intro i _
    by_cases hin : i < g.width
    · let n : Fin 128 := ⟨8 * g.byte.val + g.lo + i, by omega⟩
      have hkept : ¬ (8 * f.byte.val + f.lo ≤ n.val ∧ n.val < 8 * f.byte.val + f.lo + f.width) := by
        have := f.lo_add_width_le
        simp only [n]
        omega
      rw [Frame.readField_bit _ g i hin n rfl, Frame.readField_bit _ g i hin n rfl, Frame.writeField_bit,
        if_neg hkept]
    · simp [Frame.readField_getLsbD, hin]

/-- Settles O22: the field read is the written one when the identifiers agree, and another one when not. -/
theorem fieldsReadBackAndAreIndependent : Obligations.FieldsReadBackAndAreIndependent := by
  intro a b d e s t f hf hb hwrite
  obtain ⟨g, hg⟩ := fieldId_some hb
  rw [exec_fwrf d s hf] at hwrite
  have hfr : t.fr = s.fr.writeField f d := complete_fr hwrite
  refine ⟨_, _, exec_frdf e t hg, t.answered_complete _ _, fun hsame => ?_, fun hother => ?_⟩
  · obtain rfl : f = g := Option.some.inj (hf.symm.trans (hsame ▸ hg))
    rw [hfr, Frame.readField_writeField_same_toNat]
  · have hfg : f ≠ g := fun heq => hother (fieldId_injective hg (heq ▸ hf))
    rw [hfr, Frame.readField_writeField_ne _ _ hfg]
    exact ⟨_, exec_frdf e s hg, s.answered_complete _ _⟩

/-! ### The bit operations (R115, R116) -/

theorem ofBool_setWidth_eight (b : Bool) : (BitVec.ofBool b).setWidth 8 = if b = true then 1 else 0 := by
  cases b <;> rfl

/-- Settles O16: bit address `a` is bit `a mod 8` of byte `a div 8`. -/
theorem frdbitReadsItsBit : Obligations.FrdbitReadsItsBit := by
  intro a d s
  refine ⟨decode_commandWord 0x5 rfl, fun h => ?_, fun h => ?_⟩
  · have hlt : a.toNat < 128 := by omega
    have hexec := exec_frdbit d s (bitAddress_of_lt hlt)
    rw [ofBool_setWidth_eight] at hexec
    exact ⟨_, hexec, rfl, s.answered_complete _ _⟩
  · exact answersBadOperand_of_raise (by simp only [exec, execFrdbit, bitAddress_of_ge h])

/-- Settles O17: the bits of the frame after a bit write. -/
theorem fwrbitWritesItsBit : Obligations.FwrbitWritesItsBit := by
  intro a d s
  refine ⟨decode_commandWord 0x6 rfl, fun h => ?_, fun h => ?_⟩
  · exact ⟨_, exec_fwrbit d s (bitAddress_of_lt h), fun n => s.fr.setBit_bit _ n _, s.answered_complete _ _⟩
  · exact answersBadOperand_of_raise (by simp only [exec, execFwrbit, bitAddress_of_ge h])

/-! ### The mirrored block (R117) -/

theorem Frame.mirror_copies (fr : Frame) :
    fr.mirror.byte 8 = fr.byte 0 ∧ fr.mirror.byte 9 = fr.byte 1 ∧ fr.mirror.byte 10 = fr.byte 2 := by
  simp [Frame.mirror, Frame.byte_setByte]

/-- Settles O18: the three bytes copied, and the bytes the mirror leaves. -/
theorem fmirrorCopiesTheBlock : Obligations.FmirrorCopiesTheBlock := by
  intro a d s
  obtain ⟨h8, h9, h10⟩ := s.fr.mirror_copies
  exact ⟨decode_commandWord 0x7 rfl, _, rfl, h8, h9, h10, fun _ => s.fr.mirror_byte, s.answered_complete _ _⟩

/-! ### The words (R118, R119, R46, R47) -/

theorem halfByte_zero (j : Fin 8) : halfByte 0 j = ⟨j.val, by omega⟩ := by simp [halfByte]

theorem halfByte_one (j : Fin 8) : halfByte 1 j = ⟨8 + j.val, by omega⟩ := by simp [halfByte]

/-- Settles O19: the bytes of the two words are those of the half-frames. -/
theorem fpackPresentsTheFrame : Obligations.FpackPresentsTheFrame := by
  intro a d s
  refine ⟨decode_commandWord 0x8 rfl, _, _, _, exec_fpack a d s, rfl, s.answered_complete _ _, fun j hj => ?_⟩
  rw [← halfByte_zero ⟨j, hj⟩, ← halfByte_one ⟨j, hj⟩]
  exact ⟨wordByte_word s.fr 0 ⟨j, hj⟩, wordByte_word s.fr 1 ⟨j, hj⟩⟩

/-- Settles O20: the bytes of the half-frames are those of the two words. -/
theorem funpackLoadsTheWords : Obligations.FunpackLoadsTheWords := by
  intro a d s
  refine ⟨decode_commandWord 0x9 rfl, _, exec_funpack a d s, fun j hj => ?_, s.answered_complete _ _⟩
  rw [← halfByte_zero ⟨j, hj⟩, ← halfByte_one ⟨j, hj⟩]
  exact ⟨unpack_byte_first _ _ ⟨j, hj⟩, unpack_byte_second _ _ ⟨j, hj⟩⟩

end Sys2Proof.Machine
end

section
/-! The checksum operations and what the two stored nibbles detect (R140 to R148). Each operation ends by what its
lemma says of the sums; a single inverted bit changes exactly one nibble of its byte, which is a covered nibble, a
stored one, or one that nothing covers. -/

namespace Sys2Proof.Machine

/-! ### `CSUM` (R142) -/

theorem halfIndex_of_lt {a : Byte} (h : a.toNat < 2) : halfIndex a = some ⟨a.toNat, h⟩ := dif_pos h

theorem halfIndex_of_ge {a : Byte} (h : 2 ≤ a.toNat) : halfIndex a = none := dif_neg (Nat.not_lt.mpr h)

theorem exec_csum {a : Byte} {h : Fin 2} (d : Byte) (s : State) (hh : halfIndex a = some h) :
    exec (.csum a d) s = complete s.fr (.ok ((s.fr.csum h).setWidth 8)) s := by simp only [exec, execCsum, hh]

/-- Settles O25: the operand names a half-frame, whose checksum is its nibble total modulo 16, or there is none. -/
theorem csumSumsTheNibbles : Obligations.CsumSumsTheNibbles := by
  intro a d s
  refine ⟨decode_commandWord 0xA rfl, fun h => ?_, fun h => ?_⟩
  · refine ⟨_, _, exec_csum d s (halfIndex_of_lt h), rfl, s.answered_complete _ _, ?_⟩
    rw [BitVec.toNat_setWidth_of_le (by decide), Frame.csum_toNat]
  · exact answersBadOperand_of_raise (by simp only [exec, execCsum, halfIndex_of_ge h])

/-! ### `CSCHK` (R144, R145) -/

/-- The answer of `CSCHK`: the match bit of `Sum2` above that of `Sum1` (R144). -/
def Frame.matchBits (fr : Frame) : Byte := 0#6 ++ BitVec.ofBool (fr.sumOk 1) ++ BitVec.ofBool (fr.sumOk 0)

theorem exec_cschk (a d : Byte) (s : State) : exec (.cschk a d) s = complete s.fr (.ok s.fr.matchBits) s := rfl

theorem Frame.matchBits_toNat (fr : Frame) : fr.matchBits.toNat =
    (if fr.SumMatches 0 then 1 else 0) + (if fr.SumMatches 1 then 2 else 0) := by
  simp only [← Frame.sumOk_iff, Frame.matchBits]
  cases fr.sumOk 0 <;> cases fr.sumOk 1 <;> rfl

theorem Frame.matchBits_of_valid {fr : Frame} (h : fr.Valid) : fr.matchBits = 3 := by
  apply BitVec.eq_of_toNat_eq
  rw [Frame.matchBits_toNat, if_pos h.1, if_pos h.2]
  rfl

/-- Settles O27: the two match bits as a number. -/
theorem cschkAnswersTheMatchBits : Obligations.CschkAnswersTheMatchBits := by
  intro a d s
  exact ⟨decode_commandWord 0xC rfl, _, _, exec_cschk a d s, rfl, s.answered_complete _ _, s.fr.matchBits_toNat⟩

/-! ### `CSAPPLY` (R143) -/

theorem exec_csapply (a d : Byte) (s : State) :
    exec (.csapply a d) s = complete s.fr.applyChecksums (.ok 0) s := rfl

/-- After `CSAPPLY`, `CSCHK` answers that both sums match (R146). -/
theorem exec_cschk_of_applyChecksums (a d : Byte) {t : State} {fr : Frame} (h : t.fr = fr.applyChecksums) :
    exec (.cschk a d) t = complete t.fr (.ok 3) t := by
  rw [exec_cschk, Frame.matchBits_of_valid (h ▸ fr.applyChecksums_valid)]

/-- Settles O26: the two bytes the sums are stored in, the bytes kept, and that stored sums match and stay. -/
theorem csapplyStoresBothSums : Obligations.CsapplyStoresBothSums := by
  intro a d s
  refine ⟨decode_commandWord 0xB rfl, _, exec_csapply a d s, s.fr.applyChecksums_byte_seven,
    s.fr.applyChecksums_byte_fifteen, s.fr.applyChecksums_byte, s.answered_complete _ _, ?_, ?_⟩
  · exact ⟨_, exec_cschk_of_applyChecksums 0 0 rfl, State.answered_complete _ _ _⟩
  · exact ⟨_, exec_csapply a d _, s.fr.applyChecksums_applyChecksums⟩

/-! ### An inverted bit changes one nibble of its byte -/

/-- Bytes that agree from bit 4 on have the same high nibble. -/
theorem highNibble_congr {b b' : Byte} (h : ∀ i, 4 ≤ i → b'.getLsbD i = b.getLsbD i) :
    b'.toNat / 2 ^ 4 = b.toNat / 2 ^ 4 :=
  Nat.eq_of_testBit_eq fun i => by
    rw [Nat.testBit_div_two_pow, Nat.testBit_div_two_pow]
    exact h (i + 4) (Nat.le_add_left 4 i)

/-- Bytes that agree below bit 4 have the same low nibble. -/
theorem lowNibble_congr {b b' : Byte} (h : ∀ i, i < 4 → b'.getLsbD i = b.getLsbD i) :
    b'.toNat % 2 ^ 4 = b.toNat % 2 ^ 4 :=
  Nat.eq_of_testBit_eq fun i => by
    rw [Nat.testBit_mod_two_pow, Nat.testBit_mod_two_pow]
    by_cases hi : i < 4
    · exact congrArg _ (h i hi)
    · simp only [hi, decide_false, Bool.false_and]

/-- The frame with one bit inverted. -/
def Frame.invertBit (fr : Frame) (n : Fin 128) : Frame := fr.setBit n (!fr.bit n)

theorem Frame.invertBit_byte_ne (fr : Frame) {n : Fin 128} {k : Fin 16} (h : bitByte n ≠ k) :
    (fr.invertBit n).byte k = fr.byte k := fr.setBit_byte_ne n _ k h

theorem Frame.invertBit_getLsbD (fr : Frame) (n : Fin 128) (i : Nat) :
    ((fr.invertBit n).byte (bitByte n)).getLsbD i =
      if i = bitPosition n then !fr.bit n else (fr.byte (bitByte n)).getLsbD i := by
  have hp := bitPosition_lt n
  by_cases hi : i < 8
  · exact fr.setBit_getLsbD n _ i hi
  · rw [if_neg (by omega), BitVec.getLsbD_of_ge _ _ (by omega), BitVec.getLsbD_of_ge _ _ (by omega)]

theorem Frame.invertBit_getLsbD_ne (fr : Frame) {n : Fin 128} {i : Nat} (h : i ≠ bitPosition n) :
    ((fr.invertBit n).byte (bitByte n)).getLsbD i = (fr.byte (bitByte n)).getLsbD i := by
  rw [Frame.invertBit_getLsbD, if_neg h]

theorem Frame.invertBit_byte_changed (fr : Frame) (n : Fin 128) :
    (fr.invertBit n).byte (bitByte n) ≠ fr.byte (bitByte n) := fun heq => by
  have hbit := fr.invertBit_getLsbD n (bitPosition n)
  rw [heq, if_pos rfl, Frame.bit] at hbit
  exact Bool.not_ne_self _ hbit.symm

/-- Inverting a bit of the low nibble changes that nibble alone. -/
theorem Frame.invertBit_low (fr : Frame) {n : Fin 128} (h : bitPosition n < 4) :
    ((fr.invertBit n).byte (bitByte n)).toNat / 16 = (fr.byte (bitByte n)).toNat / 16
    ∧ ((fr.invertBit n).byte (bitByte n)).toNat % 16 ≠ (fr.byte (bitByte n)).toNat % 16 := by
  have hhigh := highNibble_congr fun i (hi : 4 ≤ i) => fr.invertBit_getLsbD_ne (n := n) (i := i) (by omega)
  have hchanged := BitVec.toNat_ne.mp (fr.invertBit_byte_changed n)
  omega

/-- Inverting a bit of the high nibble changes that nibble alone. -/
theorem Frame.invertBit_high (fr : Frame) {n : Fin 128} (h : 4 ≤ bitPosition n) :
    ((fr.invertBit n).byte (bitByte n)).toNat % 16 = (fr.byte (bitByte n)).toNat % 16
    ∧ ((fr.invertBit n).byte (bitByte n)).toNat / 16 ≠ (fr.byte (bitByte n)).toNat / 16 := by
  have hlow := lowNibble_congr fun i (hi : i < 4) => fr.invertBit_getLsbD_ne (n := n) (i := i) (by omega)
  have hchanged := BitVec.toNat_ne.mp (fr.invertBit_byte_changed n)
  omega

/-- So the nibble sum of the byte changes, also modulo 16 (R147 a). -/
theorem Frame.invertBit_nibbles (fr : Frame) (n : Fin 128) :
    nibbles ((fr.invertBit n).byte (bitByte n)) % 16 ≠ nibbles (fr.byte (bitByte n)) % 16 := by
  have hb := (fr.byte (bitByte n)).isLt
  have hb' := ((fr.invertBit n).byte (bitByte n)).isLt
  unfold nibbles
  rcases Nat.lt_or_ge (bitPosition n) 4 with hlow | hhigh
  · obtain ⟨hkept, hchanged⟩ := fr.invertBit_low hlow
    omega
  · obtain ⟨hkept, hchanged⟩ := fr.invertBit_high hhigh
    omega

/-! ### A half-frame's sum byte by byte (R140) -/

theorem Frame.nibbleTotal_eq_sum (fr : Frame) (h : Fin 2) :
    fr.nibbleTotal h = ∑ j : Fin 7, nibbles (fr.byte (halfByte h j.castSucc)) := by
  rw [Fin.sum_univ_seven]
  match h with
  | 0 => exact fr.nibbleTotal_zero
  | 1 => exact fr.nibbleTotal_one

/-- The nibble total reads only the covered bytes. -/
theorem Frame.nibbleTotal_congr {fr fr' : Frame} {h : Fin 2}
    (hkept : ∀ j : Fin 7, fr'.byte (halfByte h j.castSucc) = fr.byte (halfByte h j.castSucc)) :
    fr'.nibbleTotal h = fr.nibbleTotal h := by
  simp only [Frame.nibbleTotal_eq_sum, hkept]

/-- When one covered byte changes, the nibble total changes by as much as the byte's nibble sum. -/
theorem Frame.nibbleTotal_of_changed {fr fr' : Frame} {h : Fin 2} (j : Fin 7)
    (hkept : ∀ i ≠ j, fr'.byte (halfByte h i.castSucc) = fr.byte (halfByte h i.castSucc)) :
    fr'.nibbleTotal h + nibbles (fr.byte (halfByte h j.castSucc)) =
      fr.nibbleTotal h + nibbles (fr'.byte (halfByte h j.castSucc)) := by
  have hrest : ∑ i ∈ Finset.univ.erase j, nibbles (fr'.byte (halfByte h i.castSucc)) =
      ∑ i ∈ Finset.univ.erase j, nibbles (fr.byte (halfByte h i.castSucc)) :=
    Finset.sum_congr rfl fun i hi => by rw [hkept i (Finset.ne_of_mem_erase hi)]
  rw [Frame.nibbleTotal_eq_sum, Frame.nibbleTotal_eq_sum, ← Finset.add_sum_erase _ _ (Finset.mem_univ j),
    ← Finset.add_sum_erase _ _ (Finset.mem_univ j), hrest]
  omega

/-! ### What a stored nibble detects (R147) -/

/-- An inverted bit outside the half-frame leaves its match (R147 e). -/
theorem Frame.sumMatches_invertBit_outside (fr : Frame) {n : Fin 128} {h : Fin 2}
    (hout : ∀ j, bitByte n ≠ halfByte h j) : (fr.invertBit n).SumMatches h ↔ fr.SumMatches h := by
  have htotal : (fr.invertBit n).nibbleTotal h = fr.nibbleTotal h :=
    Frame.nibbleTotal_congr fun j => fr.invertBit_byte_ne (hout j.castSucc)
  have hstored : (fr.invertBit n).byte (sumByte h) = fr.byte (sumByte h) := fr.invertBit_byte_ne (hout 7)
  rw [Frame.SumMatches, htotal, hstored]

theorem halfByte_inj {h : Fin 2} {i j : Fin 8} (heq : halfByte h i = halfByte h j) : i = j := by
  have := congrArg Fin.val heq
  simp only [halfByte] at this
  omega

/-- An inverted bit of a covered byte breaks the match (R147 a). -/
theorem Frame.not_sumMatches_invertBit_covered {fr : Frame} {n : Fin 128} {h : Fin 2} {j : Fin 7}
    (hm : fr.SumMatches h) (hj : bitByte n = halfByte h j.castSucc) : ¬ (fr.invertBit n).SumMatches h := by
  have hkept : ∀ i : Fin 8, i ≠ j.castSucc → (fr.invertBit n).byte (halfByte h i) = fr.byte (halfByte h i) :=
    fun i hi => fr.invertBit_byte_ne fun heq => hi (halfByte_inj (heq.symm.trans hj))
  have htotal := Frame.nibbleTotal_of_changed j fun i hi =>
    hkept i.castSucc fun heq => hi (Fin.castSucc_injective _ heq)
  have hstored : (fr.invertBit n).byte (sumByte h) = fr.byte (sumByte h) :=
    hkept 7 (Fin.castSucc_lt_last j).ne'
  have hchanged := fr.invertBit_nibbles n
  rw [hj] at hchanged
  rw [Frame.SumMatches] at hm ⊢
  rw [hstored]
  omega

/-- An inverted bit of the byte that stores the sum breaks the match exactly in the high nibble (R147 b, c). -/
theorem Frame.sumMatches_invertBit_stored {fr : Frame} {n : Fin 128} {h : Fin 2} (hm : fr.SumMatches h)
    (hn : bitByte n = sumByte h) : (fr.invertBit n).SumMatches h ↔ bitPosition n < 4 := by
  have htotal : (fr.invertBit n).nibbleTotal h = fr.nibbleTotal h :=
    Frame.nibbleTotal_congr fun j => fr.invertBit_byte_ne fun heq =>
      (Fin.castSucc_lt_last j).ne (halfByte_inj (heq.symm.trans hn))
  rw [Frame.SumMatches, htotal, ← hm, ← hn]
  rcases Nat.lt_or_ge (bitPosition n) 4 with hlow | hhigh
  · exact iff_of_true (fr.invertBit_low hlow).1 hlow
  · exact iff_of_false (fr.invertBit_high hhigh).2 (Nat.not_lt.mpr hhigh)

/-- The match survives an inverted bit exactly when the bit lies outside the half-frame or in the low nibble of its
last byte. -/
theorem Frame.sumMatches_invertBit {fr : Frame} {h : Fin 2} (hm : fr.SumMatches h) (n : Fin 128) :
    (fr.invertBit n).SumMatches h ↔ (n.val / 64 = h.val → 56 ≤ n.val % 64 ∧ n.val % 64 ≤ 59) := by
  have hsplit := bitAddress_split n
  have hp := bitPosition_lt n
  by_cases hin : n.val / 64 = h.val
  · obtain ⟨j, hj⟩ : ∃ j, bitByte n = halfByte h j :=
      ⟨⟨n.val / 8 % 8, by omega⟩, by ext; simp only [bitByte, halfByte]; omega⟩
    have hval : (bitByte n).val = 8 * h.val + j.val := by rw [hj, halfByte]
    cases j using Fin.lastCases with
    | last =>
      rw [Frame.sumMatches_invertBit_stored hm hj]
      simp only [Fin.val_last] at hval
      omega
    | cast j =>
      refine iff_of_false (Frame.not_sumMatches_invertBit_covered hm hj) ?_
      simp only [Fin.val_castSucc] at hval
      omega
  · have hout : ∀ j, bitByte n ≠ halfByte h j := fun j heq => by
      have hval := congrArg Fin.val heq
      simp only [bitByte, halfByte] at hval
      omega
    exact iff_of_true ((fr.sumMatches_invertBit_outside hout).mpr hm) fun h => absurd h hin

theorem bitAddress_ofNat (n : Fin 128) : bitAddress (BitVec.ofNat 8 n.val) = some n := by
  revert n; decide

/-- Settles O28: the frame stays valid exactly when the match of the half-frame that holds the bit survives. -/
theorem singleBitErrorIsDetected : Obligations.SingleBitErrorIsDetected := by
  intro s t n d hvalid hd h
  rw [exec_fwrbit d s (bitAddress_ofNat n), hd] at h
  have hfr : t.fr = s.fr.invertBit n := complete_fr h
  obtain ⟨hm0, hm1⟩ := hvalid
  rw [hfr, Frame.Valid, Frame.sumMatches_invertBit hm0, Frame.sumMatches_invertBit hm1]
  simp only [Fin.val_zero, Fin.val_one]
  omega

/-! ### The stored sums of an encoded frame (R148) -/

theorem nibbles_encodedByte4 (wired : Bool) (swing : AbsSwing) :
    nibbles (encodedByte4 wired swing) = if wired = true ∧ swing = .vertical then 1 else 0 := by
  cases wired <;> cases swing <;> rfl

/-- The halves of an encoded frame differ in the markers, 7 against 5, and in byte 4. -/
theorem encodeFrame_nibbleTotals (wired : Bool) (mode : AbsMode) (temp : Byte) (fan : Option AbsFan)
    (swing : AbsSwing) (light : Bool) (h1 : 16 ≤ temp.toNat) (h2 : temp.toNat ≤ 30) :
    (encodeFrame wired mode temp fan swing light).nibbleTotal 1 + nibbles (encodedByte4 wired swing) =
      (encodeFrame wired mode temp fan swing light).nibbleTotal 0 + 2 := by
  have hmark1 : nibbles 0x50#8 = 5 := rfl
  have hmark2 : nibbles 0x70#8 = 7 := rfl
  have hzero : nibbles 0#8 = 0 := rfl
  rw [Frame.nibbleTotal_zero, Frame.nibbleTotal_one]
  simp [encodeFrame_byte wired mode temp fan swing light h1 h2, hmark1, hmark2, hzero]
  omega

/-- Settles O31: the stored nibbles are the two totals modulo 16. -/
theorem storedSumsDifferByTheMarkers : Obligations.StoredSumsDifferByTheMarkers := by
  intro wired mode temp fan swing light h1 h2
  obtain ⟨hsum1, hsum2⟩ := encodeFrame_sums wired mode temp fan swing light h1 h2
  have htotals := encodeFrame_nibbleTotals wired mode temp fan swing light h1 h2
  rw [nibbles_encodedByte4] at htotals
  rw [hsum1, hsum2]
  split_ifs at htotals ⊢ <;> omega

end Sys2Proof.Machine
end

section
/-! The encoder (R160 to R182): when `ENCODE` and `ADJUST` are refused, the frame `ENCODE` builds byte by byte, the
invariants of that frame, and the adjustment before it. With them every response given is sound. -/

namespace Sys2Proof.Machine

/-! ### Outside the contract (R172, R180, R225) -/

theorem exec_encode_refused_mode (a d : Byte) {s : State} (h : 6 ≤ s.acs.mode.toNat) :
    exec (.encode a d) s = .refused .encodeModeNamesNoMode := by
  simp only [exec, execEncode, AbsMode.ofCode_none h]

theorem exec_encode_refused_temperature (a d : Byte) {s : State} (hm : s.acs.mode.toNat ≤ 5)
    (ht : s.acs.temp.toNat < 16 ∨ 30 < s.acs.temp.toNat) :
    exec (.encode a d) s = .refused .encodeTemperatureOutsideContract := by
  obtain ⟨m, hcode, -⟩ := AbsMode.ofCode_some hm
  have hout : ¬ temperatureInContract s.acs.temp = true := by
    rw [temperatureInContract_iff]; omega
  simp only [exec, execEncode, hcode, if_neg hout]

theorem exec_adjust_refused (a d : Byte) {s : State} (h : 6 ≤ s.acs.mode.toNat) :
    exec (.adjust a d) s = .refused .adjustModeNamesNoMode := by
  simp only [exec, execAdjust, AbsMode.ofCode_none h]

/-- Settles O32: the mode is looked at first, and the temperature only when the mode names one. -/
theorem callsOutsideTheContractAreRefused : Obligations.CallsOutsideTheContractAreRefused :=
  fun a d _ => ⟨exec_encode_refused_mode a d, exec_encode_refused_temperature a d, exec_adjust_refused a d⟩

/-- `ENCODE` answers only inside its contract. -/
theorem inEncodeContract_of_exec {a d : Byte} {s t : State} (h : exec (.encode a d) s = .next t) :
    s.acs.InEncodeContract := by
  by_contra hout
  rcases Nat.lt_or_ge 5 s.acs.mode.toNat with hm | hm
  · cases (exec_encode_refused_mode a d hm).symm.trans h
  · have ht : s.acs.temp.toNat < 16 ∨ 30 < s.acs.temp.toNat := by
      simp only [Acs.InEncodeContract] at hout; omega
    cases (exec_encode_refused_temperature a d hm ht).symm.trans h

/-- `ADJUST` answers only inside its contract. -/
theorem inAdjustContract_of_exec {a d : Byte} {s t : State} (h : exec (.adjust a d) s = .next t) :
    s.acs.InAdjustContract := by
  by_contra hout
  cases (exec_adjust_refused a d (Nat.lt_of_not_le hout)).symm.trans h

/-! ### The field values by the port codes (R84, R86, R87, R162 to R166) -/

@[simp] theorem AbsMode.ofCode_code (m : AbsMode) : AbsMode.ofCode m.code = some m := by cases m <;> rfl

@[simp] theorem AbsSwing.ofCode_code (w : AbsSwing) : AbsSwing.ofCode w.code = w := by cases w <;> rfl

theorem AbsSwing.code_ofCode (c : BitVec 1) : (AbsSwing.ofCode c).code = c := by revert c; decide

theorem AbsFan.code_ofCode (c : BitVec 2) : (AbsFan.ofCode c).code = c := by revert c; decide

theorem AbsMode.code_toNat_le (m : AbsMode) : m.code.toNat ≤ 5 := by cases m <;> decide

/-- `Power` by the mode code (R162). -/
theorem AbsMode.eq_off_iff (m : AbsMode) : m = .off ↔ m.code = 0 := by cases m <;> decide

/-- The field value of `Mode` by the mode code (R163). -/
theorem devMode_code (m : AbsMode) : (devMode m).code = if m.code = 5 then 0 else m.code.setWidth 8 := by
  cases m <;> rfl

/-- The field value of `BasicFan` by the fan code (R165). -/
theorem devFan_code (x : AbsFan) : (devFan x).code = x.code.setWidth 8 := by cases x <;> rfl

/-- An unset fan is sent as AUTO, and its code is not read (R86, R165). -/
theorem fanFieldValue_fanMode (c : Acs) :
    fanFieldValue c.fanMode = if c.fanSet = true then c.fan.setWidth 8 else 0 := by
  unfold Acs.fanMode
  split
  · simp only [fanFieldValue, devFan_code, AbsFan.code_ofCode]
  · rfl

/-! ### The bytes of an encoded frame (R177) -/

theorem toNat_sub_sixteen {t : Byte} (h : 16 ≤ t.toNat) : (t - 16#8).toNat = t.toNat - 16 :=
  BitVec.toNat_sub_of_le (BitVec.le_def.mpr h)

theorem devMode_code_le (m : AbsMode) : (devMode m).code.toNat ≤ 4 := by cases m <;> decide

theorem fanFieldValue_le (f : Option AbsFan) : (fanFieldValue f).toNat ≤ 3 := by
  rcases fan_cases f with rfl | rfl | rfl | rfl | rfl <;> decide

theorem encodedByte0_lt (mode : AbsMode) (fan : Option AbsFan) : (encodedByte0 mode fan).toNat < 64 := by
  have hmode := devMode_code_le mode
  have hfan := fanFieldValue_le fan
  rw [encodedByte0_toNat]
  split <;> omega

theorem encodedByte2_toNat (light : Bool) : (encodedByte2 light).toNat = if light = true then 32 else 0 := by
  cases light <;> rfl

theorem encodedByte2_toNat_cases (light : Bool) :
    (encodedByte2 light).toNat = 0 ∨ (encodedByte2 light).toNat = 32 := by
  rw [encodedByte2_toNat]
  cases light <;> decide

theorem encodedByte4_toNat (swing : AbsSwing) :
    (encodedByte4 true swing).toNat = if swing = .vertical then 1 else 0 := by cases swing <;> rfl

theorem encodedByte4_lt (wired : Bool) (swing : AbsSwing) : (encodedByte4 wired swing).toNat < 16 := by
  cases wired <;> cases swing <;> decide

section
variable (wired : Bool) (mode : AbsMode) {temp : Byte} (fan : Option AbsFan) (swing : AbsSwing) (light : Bool)
  (h1 : 16 ≤ temp.toNat) (h2 : temp.toNat ≤ 30)
include h1 h2

/-- `Temp` of an encoded frame is the temperature above the device's minimum (R164). -/
theorem encodeFrame_readField_temp :
    (encodeFrame wired mode temp fan swing light).readField .temp = temp - 16 := by
  apply BitVec.eq_of_toNat_eq
  have htemp := toNat_sub_sixteen h1
  rw [Frame.readField_toNat]
  simp only [Field.byte, Field.lo, Field.width]
  rw [encodeFrame_byte wired mode temp fan swing light h1 h2 1 (by decide) (by decide)]
  simp [-BitVec.toNat_sub, htemp]
  omega

/-- `Mode` of an encoded frame is the device mode (R163). -/
theorem encodeFrame_readField_mode :
    (encodeFrame wired mode temp fan swing light).readField .mode = (devMode mode).code := by
  apply BitVec.eq_of_toNat_eq
  have hmode := devMode_code_le mode
  rw [Frame.readField_toNat]
  simp only [Field.byte, Field.lo, Field.width]
  rw [encodeFrame_byte wired mode temp fan swing light h1 h2 0 (by decide) (by decide)]
  simp [encodedByte0_toNat]
  split_ifs <;> omega

/-- The invariants (a) to (e) of R175: the bytes are known one by one, and the sums are stored last. -/
theorem encodeFrame_isEncoded : (encodeFrame wired mode temp fan swing light).IsEncoded wired := by
  have hbyte := encodeFrame_byte wired mode temp fan swing light h1 h2
  obtain ⟨hsum1, hsum2⟩ := encodeFrame_sums wired mode temp fan swing light h1 h2
  have htemp := toNat_sub_sixteen h1
  have hlight := encodedByte2_toNat_cases light
  constructor
  case mirrored => simp [hbyte]
  case marked => simp [hbyte]
  case summed => exact Frame.applyChecksums_valid _
  case undriven =>
    have h0 := encodedByte0_lt mode fan
    simp [← BitVec.toNat_inj, Frame.readField_toNat, Field.byte, Field.lo, Field.width, hbyte]
    omega
  case unnamed =>
    have h4 := encodedByte4_lt wired swing
    simp [hbyte, -BitVec.toNat_sub, htemp, h4, hsum1, hsum2]
    omega
  case unnamedBytes => simp [hbyte]
  case swing => rintro rfl; simp [hbyte, encodedByte4]
  case ranges =>
    rw [encodeFrame_readField_mode wired mode fan swing light h1 h2,
      encodeFrame_readField_temp wired mode fan swing light h1 h2]
    exact ⟨devMode_code_le mode, htemp.trans_le (by omega)⟩

end

/-! ### What `ENCODE` answers and leaves (R160, R171, R175) -/

/-- The response of `ENCODE`: the frame's two words, offered for transmission (R171). -/
def encodedResponse (fr : Frame) : Response :=
  { Response.ok 0 with tx := some { valid := true, w0 := fr.word 0, w1 := fr.word 1 } }

/-- The frame `ENCODE` builds on this hardware from its inputs, read as the mode `mode`. -/
def Acs.encodedFrame (c : Acs) (mode : AbsMode) : Frame :=
  encodeFrame Config.swingVWired mode c.temp c.fanMode (AbsSwing.ofCode c.swing) c.light

theorem Acs.encodedFrame_isEncoded {c : Acs} (h : c.InEncodeContract) (mode : AbsMode) :
    (c.encodedFrame mode).IsEncoded Config.swingVWired := by
  obtain ⟨-, hlow, hhigh⟩ := h
  exact encodeFrame_isEncoded _ mode _ _ _ hlow hhigh

/-- Inside its contract `ENCODE` loads the frame of its inputs and answers with its words. -/
theorem exec_encode_of_contract (a d : Byte) {s : State} (h : s.acs.InEncodeContract) :
    ∃ mode : AbsMode, mode.code = s.acs.mode ∧ exec (.encode a d) s =
      complete (s.acs.encodedFrame mode) (encodedResponse (s.acs.encodedFrame mode)) s := by
  obtain ⟨mode, _, -, hcode, rfl, hexec⟩ := exec_encode a d s h
  exact ⟨mode, hcode, hexec⟩

/-- Settles O30: the built frame has the invariants for either wiring, and its words unpack to it. -/
theorem encodedFramesKeepTheirInvariants : Obligations.EncodedFramesKeepTheirInvariants := by
  refine ⟨fun wired mode temp fan swing light h1 h2 => ⟨?_, ?_⟩, fun a d s h => ?_⟩
  · exact encodeFrame_isEncoded wired mode fan swing light h1 h2
  · rintro rfl
    rw [encodeFrame_byte true mode temp fan swing light h1 h2 4 (by decide) (by decide)]
    exact encodedByte4_toNat swing
  · obtain ⟨mode, -, hexec⟩ := exec_encode_of_contract a d h
    exact ⟨_, _, _, hexec, State.lastResponse_respond _ _, rfl, Acs.encodedFrame_isEncoded h mode, unpack_word _⟩

/-- Byte 0 of an encoded frame by the port codes (R162, R163, R165). -/
theorem encodedByte0_fanMode_toNat (mode : AbsMode) (c : Acs) : (encodedByte0 mode c.fanMode).toNat =
    (if mode.code.toNat = 5 then 0 else mode.code.toNat) + 8 * (if mode.code.toNat = 0 then 0 else 1)
      + 16 * (if c.fanSet = true then c.fan.toNat else 0) := by
  have hmode : (devMode mode).code.toNat = if mode.code.toNat = 5 then 0 else mode.code.toNat := by
    cases mode <;> rfl
  have hpower : (if mode = .off then 0 else 8) = 8 * (if mode.code.toNat = 0 then 0 else 1) := by
    cases mode <;> rfl
  have hfan : (fanFieldValue c.fanMode).toNat = if c.fanSet = true then c.fan.toNat else 0 := by
    rw [fanFieldValue_fanMode]
    split
    · exact BitVec.toNat_setWidth_of_le (by decide)
    · rfl
  rw [encodedByte0_toNat, hmode, hpower, hfan]

/-- The three bytes that carry the climate state, by the port codes (R162 to R166). -/
theorem Acs.encodedFrame_climateBytes {c : Acs} (h : c.InEncodeContract) {mode : AbsMode} (hcode : mode.code = c.mode) :
    ((c.encodedFrame mode).byte 0).toNat =
        (if c.mode.toNat = 5 then 0 else c.mode.toNat) + 8 * (if c.mode.toNat = 0 then 0 else 1)
          + 16 * (if c.fanSet = true then c.fan.toNat else 0)
      ∧ ((c.encodedFrame mode).byte 1).toNat = c.temp.toNat - 16
      ∧ ((c.encodedFrame mode).byte 2).toNat = if c.light = true then 32 else 0 := by
  obtain ⟨-, hlow, hhigh⟩ := h
  rw [← hcode, ← encodedByte0_fanMode_toNat, ← toNat_sub_sixteen hlow, ← encodedByte2_toNat]
  simp [Acs.encodedFrame, encodeFrame_byte _ mode c.temp c.fanMode (AbsSwing.ofCode c.swing) c.light hlow hhigh]

/-- Settles O29: bytes 0 to 2 by the port codes, bytes 7 and 15 by the sums, and the others by the invariants of
the frame. -/
theorem encodeBuildsTheFrame : Obligations.EncodeBuildsTheFrame := by
  intro a d s
  refine ⟨decode_commandWord 0xD rfl, fun h => ?_⟩
  obtain ⟨mode, hcode, hexec⟩ := exec_encode_of_contract a d h
  obtain ⟨h0, h1, h2⟩ := Acs.encodedFrame_climateBytes h hcode
  obtain ⟨⟨h8, h9, h10⟩, ⟨h3, h11⟩, -, -, -, ⟨h5, h6, h12, h13, h14⟩, h4, -⟩ :=
    Acs.encodedFrame_isEncoded h mode
  obtain ⟨-, hlow, hhigh⟩ := h
  obtain ⟨h7, h15⟩ := encodeFrame_sums Config.swingVWired mode s.acs.temp s.acs.fanMode
    (AbsSwing.ofCode s.acs.swing) s.acs.light hlow hhigh
  refine ⟨_, _, _, hexec, h0, h1, h2, h3, h4 rfl, h5, h6, h7, h8, h9, h10, h11, h12, h13, h14, h15,
    s.answered_complete _ _, fun j hj => ?_⟩
  rw [← halfByte_zero ⟨j, hj⟩, ← halfByte_one ⟨j, hj⟩]
  exact ⟨wordByte_word _ 0 ⟨j, hj⟩, wordByte_word _ 1 ⟨j, hj⟩⟩

/-! ### `ENCODE` as a sequence of operations (R176) -/

/-- The instructions complete one after the other and leave `fr` in the frame register. -/
def RunsTo (is : List Instr) (s : State) (fr : Frame) : Prop := ∃ t, runInstrs is s = .next t ∧ t.fr = fr

theorem RunsTo.nil (s : State) : RunsTo [] s s.fr := ⟨s, rfl, rfl⟩

theorem RunsTo.cons {i : Instr} {is : List Instr} {s : State} {fr fr' : Frame} {r : Response}
    (hi : exec i s = complete fr r s) (h : RunsTo is ((s.setFr fr).respond r) fr') : RunsTo (i :: is) s fr' := by
  obtain ⟨t, ht, hfr⟩ := h
  refine ⟨t, ?_, hfr⟩
  simp only [runInstrs, hi, complete]
  exact ht

/-- The sequence of R176, its operands the field values of `ENCODE`'s steps, builds the frame step by step. -/
theorem encodeSequence_runsTo (c : Acs) (mode : AbsMode) (s : State) :
    RunsTo [.fclr 0 0, .fwrf 1 (if mode = .off then 0 else 1), .fwrf 0 (devMode mode).code,
      .fwrf 5 (c.temp - 16), .fwrf 2 (fanFieldValue c.fanMode), .fwrf 7 ((BitVec.ofBool c.light).setWidth 8),
      .fmirror 0 0, .fwrb 3 0x50, .fwrb 11 0x70, .csapply 0 0] s (c.encodedFrame mode) :=
  .cons rfl <| .cons (exec_fwrf _ _ rfl) <| .cons (exec_fwrf _ _ rfl) <| .cons (exec_fwrf _ _ rfl) <|
    .cons (exec_fwrf _ _ rfl) <| .cons (exec_fwrf _ _ rfl) <| .cons rfl <| .cons (exec_fwrb _ _ rfl) <|
    .cons (exec_fwrb _ _ rfl) <| .cons (exec_csapply _ _ _) (.nil _)

/-- Settles O33: the operands computed from the port codes are the field values of `ENCODE`'s steps, and `FPACK`
then packs the same frame. -/
theorem encodeEqualsItsOperationSequence : Obligations.EncodeEqualsItsOperationSequence := by
  intro a d p m t f l s h hp hm ht hf hl
  obtain ⟨mode, hcode, hexec⟩ := exec_encode_of_contract a d h
  have hpower : p = if mode = .off then 0 else 1 := by simp only [hp, mode.eq_off_iff, hcode]
  have hmode : m = (devMode mode).code := by rw [hm, devMode_code, hcode]
  have hfan : f = fanFieldValue s.acs.fanMode := by rw [hf, fanFieldValue_fanMode]
  have hlight : l = (BitVec.ofBool s.acs.light).setWidth 8 := by rw [hl, ofBool_setWidth_eight]
  subst hpower hmode ht hfan hlight
  obtain ⟨v, hv, hfr⟩ := encodeSequence_runsTo s.acs mode s
  refine ⟨_, v, _, _, _, _, hexec, hv, hfr, exec_fpack 0 0 v, State.lastResponse_respond _ _, rfl,
    State.lastResponse_respond _ _, ?_⟩
  rw [packedResponse, hfr]

/-! ### `ADJUST` (R180 to R182) -/

/-- `adj_swing` by the port codes (R180). -/
theorem adjustSwing_code (mode : AbsMode) (c : BitVec 1) :
    (adjustSwing mode (AbsSwing.ofCode c)).code = if mode.code = 0 then 0 else c := by
  simp only [adjustSwing, mode.eq_off_iff]
  split
  · rfl
  · exact AbsSwing.code_ofCode c

/-- `adj_temp` by the port codes (R180). -/
theorem adjustTemp_eq (mode : AbsMode) (t : Byte) :
    adjustTemp mode t = if mode.code = 5 ∨ mode.code = 3 then 25 else t := by
  cases mode <;> rfl

/-- Settles O34: what `ADJUST` answers for the mode its code names, read by the port codes. -/
theorem adjustForcesSwingAndSetpoint : Obligations.AdjustForcesSwingAndSetpoint := by
  intro a d s
  refine ⟨decode_commandWord 0xF rfl, fun h => ?_⟩
  obtain ⟨mode, hof, hcode⟩ := AbsMode.ofCode_some h
  have hexec := exec_adjust a d s mode hof
  rw [adjustSwing_code, adjustTemp_eq, hcode] at hexec
  exact ⟨_, hexec, rfl, s.answered_complete _ _⟩

/-- What a climate state becomes when `ADJUST` has answered for it and its host has written back (R181). -/
theorem ClimateState.afterAdjust_of_exec {c : ClimateState} {unread : BitVec 2} {s t : State} {r : Response}
    {a d : Byte} (hs : s.acs = c.toAcs unread) (h : exec (.adjust a d) s = .next t)
    (hr : t.lastResponse = some r) :
    c.afterAdjust r = { c with swing := adjustSwing c.mode c.swing, temp := adjustTemp c.mode c.temp } := by
  have hof : AbsMode.ofCode s.acs.mode = some c.mode := by rw [hs]; exact c.mode.ofCode_code
  rw [exec_adjust a d s c.mode hof] at h
  cases h
  rw [State.lastResponse_respond] at hr
  cases hr
  simp [ClimateState.afterAdjust, hs, ClimateState.toAcs]

/-- Settles O35: the written-back setpoint 25 is inside the contract of `ENCODE`, and `Temp` counts from 16. -/
theorem adjustedFramesCarryTheSetpoint : Obligations.AdjustedFramesCarryTheSetpoint := by
  intro c unread s t r a d hs h hr
  rw [ClimateState.afterAdjust_of_exec hs h hr]
  refine ⟨fun hoff => ?_, fun hauto => ⟨?_, fun u hu => ?_⟩⟩
  · simp [hoff, adjustSwing, adjustTemp]
  · rcases hauto with hmode | hmode <;> simp [hmode, adjustSwing]
  · have htemp : u.acs.temp = 25 := by simp [hu, ClimateState.toAcs, adjustTemp, hauto]
    have hcontract : u.acs.InEncodeContract := by
      refine ⟨?_, ?_⟩
      · rw [hu]; exact c.mode.code_toNat_le
      · rw [htemp]; decide
    obtain ⟨mode, -, hexec⟩ := exec_encode_of_contract a d hcontract
    obtain ⟨-, hlow, hhigh⟩ := hcontract
    refine ⟨_, hexec, ?_⟩
    rw [State.respond_fr, State.setFr_fr, Acs.encodedFrame,
      encodeFrame_readField_temp _ _ _ _ _ hlow hhigh, htemp]
    rfl

/-! ### Every response is sound (R84, R85, R171, R213, R221 to R223, R258) -/

/-- If the operation answers, it gives one response, a sound one. -/
def AnswersSoundly (o : Host.Outcome State Fault Refusal) (s : State) : Prop :=
  ∀ t, o = .next t → ∃ r : Response, t.responses = s.responses ++ [r] ∧ r.Sound

theorem AnswersSoundly.of_complete {r : Response} (h : r.Sound) (fr : Frame) (s : State) :
    AnswersSoundly (complete fr r s) s := by
  rintro _ ⟨⟩
  exact ⟨r, rfl, h⟩

/-- A response with status OK and no update owes the host only that what it offers to transmit is encoded. -/
theorem Response.sound_of_ok {r : Response} (hstatus : r.status = .ok) (hupd : r.upd = none)
    (htx : ∀ x, r.tx = some x → x.valid = true → (unpack x.w0 x.w1).IsEncoded Config.swingVWired) : r.Sound where
  transmitted := htx
  failed h := absurd hstatus h
  updated u hu := by rw [hupd] at hu; cases hu

theorem Response.ok_sound (q : Byte) : (Response.ok q).Sound :=
  sound_of_ok rfl rfl fun _ h => by cases h

theorem Failure.response_sound (e : Failure) : e.response.Sound where
  transmitted x h := by cases e <;> cases h
  failed _ := by
    cases e with
    | unhandledShort | unhandledCsum => exact ⟨rfl, rfl, rfl, fun _ hu => (Option.some.inj hu).symm⟩
    | badOperand => exact ⟨rfl, rfl, rfl, fun _ hu => by cases hu⟩
  updated u hu hvalid := by cases e <;> cases hu <;> cases hvalid

theorem packedResponse_sound (fr : Frame) : (packedResponse fr).Sound :=
  Response.sound_of_ok rfl rfl fun _ h hvalid => by cases h; cases hvalid

theorem encodedResponse_sound {fr : Frame} (h : fr.IsEncoded Config.swingVWired) : (encodedResponse fr).Sound :=
  Response.sound_of_ok rfl rfl fun _ hx _ => by cases hx; rwa [unpack_word]

/-- A delivered mode is an abstract mode's code, temperature and fan are always delivered (R198 to R201). -/
theorem deliveredResponse_sound (mode : Option AbsMode) (fr : Frame) :
    ({ Response.ok 0 with upd := some (updateOf mode fr) } : Response).Sound where
  transmitted _ hx := by cases hx
  failed h := absurd rfl h
  updated := by
    rintro _ ⟨⟩ -
    have htemp := decodedTemp_toNat fr
    refine ⟨⟨_, rfl, by omega, by omega⟩, rfl, fun hwe => ?_, fun hwe => ?_⟩
    · obtain ⟨m, rfl⟩ := Option.isSome_iff_exists.mp hwe
      exact ⟨m.code, rfl, m.code_toNat_le⟩
    · obtain rfl := Option.isNone_iff_eq_none.mp (Option.isSome_eq_false_iff.mp hwe)
      rfl

theorem receptionResponse_sound (fr : Frame) (mode : Option AbsMode) : (receptionResponse fr mode).Sound := by
  unfold receptionResponse
  split
  · exact deliveredResponse_sound mode fr
  · exact Failure.unhandledCsum.response_sound

theorem raise_answersSoundly (e : Failure) (s : State) : AnswersSoundly (raise e s) s :=
  .of_complete e.response_sound _ s

theorem receive_answersSoundly (fr : Frame) (mode : Option AbsMode) (s : State) :
    AnswersSoundly (receive fr mode s) s := by
  rw [receive_next]
  exact .of_complete (receptionResponse_sound fr mode) fr s

theorem exec_decode_answersSoundly (a d : Byte) (s : State) : AnswersSoundly (exec (.decode a d) s) s := by
  rcases Nat.lt_or_ge s.rx.n.toNat 2 with hshort | henough
  · rw [exec_decode_short a d s hshort]; exact raise_answersSoundly _ s
  · rw [exec_decode a d s henough]; exact receive_answersSoundly _ _ s

theorem exec_encode_answersSoundly (a d : Byte) (s : State) : AnswersSoundly (exec (.encode a d) s) s := by
  intro t ht
  have hcontract := inEncodeContract_of_exec ht
  obtain ⟨mode, -, hexec⟩ := exec_encode_of_contract a d hcontract
  exact AnswersSoundly.of_complete (encodedResponse_sound (Acs.encodedFrame_isEncoded hcontract mode)) _ s t
    (hexec.symm.trans ht)

theorem exec_adjust_answersSoundly (a d : Byte) (s : State) : AnswersSoundly (exec (.adjust a d) s) s := by
  intro t ht
  obtain ⟨mode, hof, -⟩ := AbsMode.ofCode_some (inAdjustContract_of_exec ht)
  rw [exec_adjust a d s mode hof] at ht
  refine AnswersSoundly.of_complete ?_ _ s t ht
  exact Response.sound_of_ok rfl rfl fun _ h => by cases h

/-- Every instruction gives a sound response, whatever its operands and the ports. -/
theorem exec_answersSoundly (i : Instr) (s : State) : AnswersSoundly (exec i s) s := by
  cases i with
  | encode a d => exact exec_encode_answersSoundly a d s
  | adjust a d => exact exec_adjust_answersSoundly a d s
  | decode a d => exact exec_decode_answersSoundly a d s
  | fpack => exact .of_complete (packedResponse_sound _) _ s
  | fclr | fmirror | funpack | csapply | cschk => exact .of_complete (Response.ok_sound _) _ s
  | frdb | fwrb | frdf | fwrf | frdbit | fwrbit | csum =>
    simp only [exec, execFrdb, execFwrb, execFrdf, execFwrf, execFrdbit, execFwrbit, execCsum]
    split
    · exact .of_complete (Response.ok_sound _) _ s
    · exact raise_answersSoundly _ s
  | acOff | acAuto | acCool | acDry | acFan | acHeat | acRsv5 | acRsv6 | acRsv7 | cfEncoded =>
    exact receive_answersSoundly _ _ s

/-- Settles O57: an idle step and the reset event give no response, and every instruction gives a sound one. -/
theorem stepKeepsResponsesSound : Obligations.StepKeepsResponsesSound := by
  intro s t hs h
  cases hp : s.pending with
  | nil =>
    rw [step_of_pending_nil hp] at h
    cases h
    exact hs
  | cons a rest =>
    cases hi : a.instr with
    | none =>
      rw [step_of_reset hp hi] at h
      cases h
      exact hs
    | some i =>
      rw [step_of_instr hp hi] at h
      obtain ⟨r, hresponses, hr⟩ := exec_answersSoundly i _ t h
      rw [State.sample_responses, State.withPending_responses] at hresponses
      rw [State.ResponsesSound, hresponses, List.forall_mem_append, List.forall_mem_singleton]
      exact ⟨hs, hr⟩

end Sys2Proof.Machine
end

section
/-! The decoder (R190 to R214): what `DECODE` answers to short, corrupt and valid input, what the presented frames
deliver, and, with the host's merge, that decoding undoes encoding. -/

namespace Sys2Proof.Machine

/-! ### The mapping tables (R163, R165, R197, R200, R214) -/

theorem absFan_devFan (x : AbsFan) : absFan (devFan x) = x := by cases x <;> rfl

theorem devFan_absFan (y : DevFan) : devFan (absFan y) = y := by cases y <;> rfl

theorem absMode_devMode {x : AbsMode} (h : x ≠ .off) : absMode (devMode x) = x := by
  cases x with
  | off => exact absurd rfl h
  | cool | dry | fanOnly | heat | heatCool => rfl

theorem devMode_absMode (y : DevMode) : devMode (absMode y) = y := by cases y <;> rfl

/-- Settles O49: each table by its entries. -/
theorem mappingTablesAreInverse : Obligations.MappingTablesAreInverse :=
  ⟨absFan_devFan, devFan_absFan, fun _ => absMode_devMode, devMode_absMode, rfl⟩

@[simp] theorem AbsFan.ofCode_code (x : AbsFan) : AbsFan.ofCode x.code = x := by cases x <;> rfl

@[simp] theorem DevMode.ofCode_code (m : DevMode) : DevMode.ofCode m.code = some m := by cases m <;> rfl

@[simp] theorem DevFan.ofCode_code (x : DevFan) : DevFan.ofCode x.code = x := by cases x <;> rfl

/-! ### What a reception answers (R191 to R201) -/

theorem Failure.unhandledShort_failsWith : Failure.unhandledShort.response.FailsWith .unhandledShort :=
  ⟨rfl, ⟨rfl, rfl⟩, _, rfl, rfl, rfl⟩

theorem Failure.unhandledCsum_failsWith : Failure.unhandledCsum.response.FailsWith .unhandledCsum :=
  ⟨rfl, ⟨rfl, rfl⟩, _, rfl, rfl, rfl⟩

theorem receptionResponse_of_valid {fr : Frame} (h : fr.Valid) (mode : Option AbsMode) :
    receptionResponse fr mode = { Response.ok 0 with upd := some (updateOf mode fr) } :=
  if_pos (fr.checksumValid_iff.mpr h)

theorem receptionResponse_of_not_valid {fr : Frame} (h : ¬ fr.Valid) (mode : Option AbsMode) :
    receptionResponse fr mode = Failure.unhandledCsum.response :=
  if_neg (mt fr.checksumValid_iff.mp h)

theorem receptionResponse_status_eq_ok_iff (fr : Frame) (mode : Option AbsMode) :
    (receptionResponse fr mode).status = .ok ↔ fr.Valid := by
  by_cases h : fr.Valid
  · rw [receptionResponse_of_valid h]
    exact iff_of_true rfl h
  · rw [receptionResponse_of_not_valid h]
    exact iff_of_false (by decide) h

/-- The response of `DECODE` to the two words of a frame: its mode is read off the frame's own fields. -/
def decodedResponse (fr : Frame) : Response := receptionResponse fr (decodedMode fr)

/-- `DECODE` of at least two words loads their frame and answers (R192, R201). -/
theorem exec_decode_complete (a d : Byte) {s : State} {fr : Frame} (hn : 2 ≤ s.rx.n.toNat)
    (hfr : unpack s.rx.w0 s.rx.w1 = fr) : exec (.decode a d) s = complete fr (decodedResponse fr) s := by
  rw [exec_decode a d s hn, hfr, receive_next]
  rfl

/-- Settles O36: the failure is raised before any input but `rx_n` is looked at. -/
theorem decodeRejectsShortInput : Obligations.DecodeRejectsShortInput :=
  ⟨_, Failure.unhandledShort_failsWith, fun a d s h => ⟨_, exec_decode_short a d s h, rfl, s.answered_complete _ _⟩⟩

/-- Settles O37: the frame is loaded before its sums are compared, and the failure has one response. -/
theorem decodeRejectsBadChecksum : Obligations.DecodeRejectsBadChecksum := by
  refine ⟨_, Failure.unhandledCsum_failsWith, fun a d s hn hbad => ?_⟩
  rw [exec_decode_complete a d hn rfl, decodedResponse, receptionResponse_of_not_valid hbad]
  exact ⟨_, rfl, rfl, s.answered_complete _ _⟩

/-- The mode signals of a delivered update, by byte 0 of the frame (R196 to R198). -/
theorem updateOf_decodedMode (fr : Frame) : (updateOf (decodedMode fr) fr).mode = modeCodeOf (fr.byte 0)
    ∧ (updateOf (decodedMode fr) fr).modeWe = (modeCodeOf (fr.byte 0)).isSome :=
  ⟨decodedMode_code fr, decodedMode_isSome fr⟩

theorem decodedFan_code_toNat (fr : Frame) : (decodedFan fr).code.toNat = (fr.byte 0).toNat / 16 % 4 := by
  rw [decodedFan_code, BitVec.extractLsb'_toNat, Nat.shiftRight_eq_div_pow]

/-- Settles O38: the update of the loaded frame, its mode by the cases of byte 0. -/
theorem decodeDeliversTheUpdate : Obligations.DecodeDeliversTheUpdate := by
  intro a d s
  refine ⟨decode_commandWord 0xE rfl, fun hn hvalid => ?_⟩
  have hexec := exec_decode_complete a d hn rfl
  rw [decodedResponse, receptionResponse_of_valid hvalid] at hexec
  generalize unpack s.rx.w0 s.rx.w1 = fr at hexec ⊢
  obtain ⟨hmode, hwe⟩ := updateOf_decodedMode fr
  obtain ⟨hoff, hauto, hmapped, hreserved⟩ := modeCodeOf_cases (fr.byte 0)
  refine ⟨_, _, hexec, rfl, s.answered_complete _ _, rfl, ?_, ?_, ?_, ?_, ⟨_, rfl, decodedTemp_toNat fr⟩,
    ⟨_, rfl, decodedFan_code_toNat fr⟩⟩ <;> rw [hwe]
  · intro hp; rw [hmode, hoff hp]; exact ⟨rfl, rfl⟩
  · intro hp h0; rw [hmode, hauto hp h0]; exact ⟨rfl, rfl⟩
  · intro hp h1 h4; rw [hmode, hmapped hp h1 h4]; exact ⟨rfl, rfl⟩
  · intro hp h5; rw [hreserved hp h5]; rfl

/-! ### The classes of a received frame (R205 to R211) -/

/-- Settles O39: the class is received with the mode OFF. -/
theorem powerOffClassDelivers : Obligations.PowerOffClassDelivers := by
  rintro m r s _ ⟨⟩ hvalid
  exact deliversFrame_of_receive (mode := some .off) rfl hvalid

/-- Settles O40: each class is received with its own mode. -/
theorem definedModeClassesDeliver : Obligations.DefinedModeClassesDeliver := by
  intro r s f
  refine ⟨?_, ?_, ?_, ?_, ?_⟩ <;> rintro ⟨⟩ hvalid
  · exact deliversFrame_of_receive (mode := some .heatCool) rfl hvalid
  · exact deliversFrame_of_receive (mode := some .cool) rfl hvalid
  · exact deliversFrame_of_receive (mode := some .dry) rfl hvalid
  · exact deliversFrame_of_receive (mode := some .fanOnly) rfl hvalid
  · exact deliversFrame_of_receive (mode := some .heat) rfl hvalid

/-- Settles O41: the three classes are received with no mode. -/
theorem reservedModeClassesDeliver : Obligations.ReservedModeClassesDeliver := by
  intro r s f
  refine ⟨?_, ?_, ?_⟩ <;> rintro ⟨⟩ hvalid <;> exact deliversFrame_of_receive (mode := none) rfl hvalid

/-- The reception of a frame with a mismatched sum loads it and answers the failure (R193). -/
theorem rejectsFrame_of_receive {i : Instr} {f : FrameBits} {mode : Option AbsMode} {s : State}
    (hexec : exec i s = receive (Frame.ofBits f) mode s) (hbad : ¬ (Frame.ofBits f).Valid) : RejectsFrame i f s := by
  rw [receive_next, receptionResponse_of_not_valid hbad] at hexec
  exact ⟨_, _, hexec, Frame.ofBits_bit f, s.answered_complete _ _, Failure.unhandledCsum_failsWith⟩

/-- Settles O43: every presentation of a frame is its reception. -/
theorem presentedFramesWithBadSumsAreRejected : Obligations.PresentedFramesWithBadSumsAreRejected := by
  rintro i s f (h | h) hbad
  · exact rejectsFrame_of_receive (exec_of_encode_received h s) hbad
  · exact rejectsFrame_of_receive (exec_of_encode_encoded h s) hbad

/-! ### `DECODE` against `FUNPACK` and `CSCHK` (R204) -/

theorem Frame.matchBits_eq_three_iff (fr : Frame) : fr.matchBits = 3 ↔ fr.Valid := by
  refine ⟨fun h => ?_, Frame.matchBits_of_valid⟩
  have hbits := fr.matchBits_toNat
  rw [h] at hbits
  split_ifs at hbits with h0 h1
  · exact ⟨h0, h1⟩
  all_goals exact absurd hbits (by decide)

/-- Settles O45: both load the same frame, and both statuses say whether it is checksum-valid. -/
theorem decodeIsUnpackThenCheck : Obligations.DecodeIsUnpackThenCheck := by
  intro a d s t u v r r' hn ht hu hv hr hr'
  rw [exec_decode_complete a d hn rfl] at ht
  rw [exec_funpack] at hu
  cases ht
  cases hu
  rw [exec_cschk] at hv
  cases hv
  rw [State.lastResponse_respond] at hr hr'
  cases hr
  cases hr'
  exact ⟨rfl, (receptionResponse_status_eq_ok_iff _ _).trans (Frame.matchBits_eq_three_iff _).symm⟩

/-! ### The four fields an update is read from (R195, R203) -/

/-- A field of half-frame 0 depends on the bits of word 0 that hold it. -/
theorem Frame.readField_unpack_congr {w0 w1 w0' w1' : TransportWord} {f : Field} {j : Fin 8} {n : Nat}
    (hj : f.byte = halfByte 0 j) (hn : f.lo + f.width ≤ n)
    (h : w0.extractLsb' (8 * j.val) n = w0'.extractLsb' (8 * j.val) n) :
    (unpack w0 w1).readField f = (unpack w0' w1').readField f := by
  apply BitVec.eq_of_getLsbD_eq
  intro i _
  rw [Frame.readField_getLsbD, Frame.readField_getLsbD, hj, unpack_byte_first, unpack_byte_first]
  by_cases hi : i < f.width
  · have hbit := congrArg (BitVec.getLsbD · (f.lo + i)) h
    have hin : f.lo + i < n := by omega
    simp only [BitVec.getLsbD_extractLsb', hin, decide_true, Bool.true_and] at hbit
    simp only [wordByte, BitVec.getLsbD_extractLsb', hbit]
  · simp only [hi, decide_false, Bool.false_and]

/-- Frames that agree in `Power`, `Mode`, `BasicFan` and `Temp` give the same update. -/
theorem updateOf_decodedMode_congr {fr fr' : Frame} (hpower : fr.readField .power = fr'.readField .power)
    (hmode : fr.readField .mode = fr'.readField .mode) (hfan : fr.readField .basicFan = fr'.readField .basicFan)
    (htemp : fr.readField .temp = fr'.readField .temp) :
    updateOf (decodedMode fr) fr = updateOf (decodedMode fr') fr' := by
  simp only [updateOf, decodedMode, decodedTemp, decodedFan, hpower, hmode, hfan, htemp]

/-- Settles O47: the four fields lie in the bits that agree. -/
theorem decodeReadsFourFieldsOnly : Obligations.DecodeReadsFourFieldsOnly := by
  intro s s' t t' a d hn hn' hvalid hvalid' hlow htemp ht ht'
  rw [exec_decode_complete a d hn rfl, decodedResponse, receptionResponse_of_valid hvalid] at ht
  rw [exec_decode_complete a d hn' rfl, decodedResponse, receptionResponse_of_valid hvalid'] at ht'
  cases ht
  cases ht'
  have hupdate := updateOf_decodedMode_congr (fr := unpack s.rx.w0 s.rx.w1) (fr' := unpack s'.rx.w0 s'.rx.w1)
    (Frame.readField_unpack_congr (j := 0) rfl (by decide) hlow)
    (Frame.readField_unpack_congr (j := 0) rfl (by decide) hlow)
    (Frame.readField_unpack_congr (j := 0) rfl (by decide) hlow)
    (Frame.readField_unpack_congr (j := 1) rfl (by decide) htemp)
  rw [State.lastResponse_respond, State.lastResponse_respond, hupdate]

/-! ### The host's merge (R201, R202, R213) -/

theorem ClimateState.merge_swing (c : ClimateState) (u : Upd) : (c.merge u).swing = c.swing := by
  unfold ClimateState.merge; split <;> rfl

theorem ClimateState.merge_light (c : ClimateState) (u : Upd) : (c.merge u).light = c.light := by
  unfold ClimateState.merge; split <;> rfl

theorem ClimateState.merge_mode_of_not_modeWe (c : ClimateState) {u : Upd} (h : u.modeWe = false) :
    (c.merge u).mode = c.mode := by
  unfold ClimateState.merge
  split
  · simp only [h, Bool.false_eq_true, if_false]
  · rfl

theorem ClimateState.afterDecode_of_ok (c : ClimateState) {r : Response} {u : Upd} (hr : r.status = .ok)
    (hu : r.upd = some u) : c.afterDecode r = c.merge u := by
  simp only [ClimateState.afterDecode, hr, hu]

/-- A response that is no success with an update leaves the host's climate state. -/
theorem ClimateState.afterDecode_of_no_update (c : ClimateState) {r : Response}
    (h : ∀ u, r.status = .ok → r.upd ≠ some u) : c.afterDecode r = c := by
  unfold ClimateState.afterDecode
  split
  next u hstatus hupd => exact absurd hupd (h u hstatus)
  next => rfl

/-- After a `DECODE` response the host has merged its update, or holds what it held. -/
theorem ClimateState.afterDecode_cases (c : ClimateState) (r : Response) :
    (∃ u, c.afterDecode r = c.merge u) ∨ c.afterDecode r = c := by
  by_cases h : ∃ u, r.status = .ok ∧ r.upd = some u
  · obtain ⟨u, hstatus, hupd⟩ := h
    exact .inl ⟨u, c.afterDecode_of_ok hstatus hupd⟩
  · exact .inr (c.afterDecode_of_no_update fun u hstatus hupd => h ⟨u, hstatus, hupd⟩)

/-- Settles O48: what the merge leaves alone, and that there is none without status OK. -/
theorem mergeHappensOnlyOnSuccess : Obligations.MergeHappensOnlyOnSuccess := by
  intro c r
  refine ⟨fun h => c.afterDecode_of_no_update fun _ hok => absurd hok h, ?_, ?_, fun x hok hupd _ hwe => ?_⟩
  · rcases c.afterDecode_cases r with ⟨u, hr⟩ | hr <;> rw [hr]
    exact c.merge_swing u
  · rcases c.afterDecode_cases r with ⟨u, hr⟩ | hr <;> rw [hr]
    exact c.merge_light u
  · rw [c.afterDecode_of_ok hok hupd]
    exact c.merge_mode_of_not_modeWe hwe

/-- The merge of an update with a mode takes over mode, temperature and fan. -/
theorem ClimateState.merge_updateOf_some (c : ClimateState) (mode : AbsMode) (fr : Frame) :
    c.merge (updateOf (some mode) fr) =
      { mode := mode, temp := decodedTemp fr, fan := some (decodedFan fr), swing := c.swing, light := c.light } := by
  simp [ClimateState.merge, updateOf]

/-! ### Decoding undoes encoding (R212) -/

section
variable (wired : Bool) (mode : AbsMode) {temp : Byte} (fan : Option AbsFan) (swing : AbsSwing) (light : Bool)
  (h1 : 16 ≤ temp.toNat) (h2 : temp.toNat ≤ 30)
include h1 h2

theorem encodeFrame_byte_zero_toNat : ((encodeFrame wired mode temp fan swing light).byte 0).toNat =
    (devMode mode).code.toNat + (if mode = .off then 0 else 8) + 16 * (fanFieldValue fan).toNat := by
  rw [encodeFrame_byte wired mode temp fan swing light h1 h2 0 (by decide) (by decide), if_pos (.inl rfl),
    encodedByte0_toNat]

/-- `Power` of an encoded frame (R162). -/
theorem encodeFrame_readField_power :
    (encodeFrame wired mode temp fan swing light).readField .power = if mode = .off then 0 else 1 := by
  apply BitVec.eq_of_toNat_eq
  have hmode := devMode_code_le mode
  rw [Frame.readField_toNat]
  simp only [Field.byte, Field.lo, Field.width, encodeFrame_byte_zero_toNat wired mode fan swing light h1 h2]
  split_ifs <;> simp only [BitVec.ofNat_eq_ofNat, BitVec.toNat_ofNat] <;> omega

/-- `BasicFan` of an encoded frame (R165). -/
theorem encodeFrame_readField_basicFan :
    (encodeFrame wired mode temp fan swing light).readField .basicFan = fanFieldValue fan := by
  apply BitVec.eq_of_toNat_eq
  have hmode := devMode_code_le mode
  have hfan := fanFieldValue_le fan
  rw [Frame.readField_toNat]
  simp only [Field.byte, Field.lo, Field.width, encodeFrame_byte_zero_toNat wired mode fan swing light h1 h2]
  split_ifs <;> omega

/-- `Power` tells OFF from the modes that `Mode` names (R196, R197). -/
theorem decodedMode_encodeFrame : decodedMode (encodeFrame wired mode temp fan swing light) = some mode := by
  unfold decodedMode
  rw [encodeFrame_readField_power wired mode fan swing light h1 h2,
    encodeFrame_readField_mode wired mode fan swing light h1 h2, DevMode.ofCode_code]
  by_cases hoff : mode = .off
  · simp [hoff]
  · simp [hoff, absMode_devMode hoff]

theorem decodedTemp_encodeFrame : decodedTemp (encodeFrame wired mode temp fan swing light) = temp := by
  rw [decodedTemp, encodeFrame_readField_temp wired mode fan swing light h1 h2]
  exact BitVec.sub_add_cancel temp 16

/-- An unset fan comes back as AUTO (R165, C5). -/
theorem decodedFan_encodeFrame :
    decodedFan (encodeFrame wired mode temp fan swing light) = fan.getD .auto := by
  rw [decodedFan, encodeFrame_readField_basicFan wired mode fan swing light h1 h2]
  cases fan with
  | none => rfl
  | some x => rw [fanFieldValue, DevFan.ofCode_code, absFan_devFan]; rfl

end

theorem ClimateState.toAcs_fanMode (c : ClimateState) (unread : BitVec 2) : (c.toAcs unread).fanMode = c.fan := by
  cases hfan : c.fan <;> simp [Acs.fanMode, ClimateState.toAcs, hfan]

/-- The frame `ENCODE` builds for a climate state put on the `acs` bundle. -/
def ClimateState.encodedFrame (c : ClimateState) : Frame :=
  encodeFrame Config.swingVWired c.mode c.temp c.fan c.swing c.light

/-- `ENCODE` of a climate state inside the contract (R160). -/
theorem exec_encode_of_climateState (a d : Byte) {s : State} {c : ClimateState} {unread : BitVec 2}
    (hs : s.acs = c.toAcs unread) (hlow : 16 ≤ c.temp.toNat) (hhigh : c.temp.toNat ≤ 30) :
    exec (.encode a d) s = complete c.encodedFrame (encodedResponse c.encodedFrame) s := by
  have hcontract : s.acs.InEncodeContract := by rw [hs]; exact ⟨c.mode.code_toNat_le, hlow, hhigh⟩
  obtain ⟨mode, hcode, hexec⟩ := exec_encode_of_contract a d hcontract
  have hmode : mode = c.mode := by
    have hof := congrArg AbsMode.ofCode hcode
    simpa [hs, ClimateState.toAcs] using hof
  have hframe : s.acs.encodedFrame mode = c.encodedFrame := by
    rw [Acs.encodedFrame, hmode, hs, c.toAcs_fanMode]
    simp [ClimateState.encodedFrame, ClimateState.toAcs]
  rw [hexec, hframe]

/-- `DECODE`'s response to the frame of a climate state, merged into what a host holds. -/
theorem ClimateState.afterDecode_encodedFrame {c : ClimateState} (hlow : 16 ≤ c.temp.toNat)
    (hhigh : c.temp.toNat ≤ 30) : (decodedResponse c.encodedFrame).status = .ok
      ∧ ∀ h : ClimateState, h.afterDecode (decodedResponse c.encodedFrame) =
        { mode := c.mode, temp := c.temp, fan := some (c.fan.getD .auto), swing := h.swing, light := h.light } := by
  have hvalid : c.encodedFrame.Valid := (encodeFrame_isEncoded _ c.mode c.fan c.swing c.light hlow hhigh).summed
  have hmode : decodedMode c.encodedFrame = some c.mode := decodedMode_encodeFrame _ _ _ _ _ hlow hhigh
  have htemp : decodedTemp c.encodedFrame = c.temp := decodedTemp_encodeFrame _ _ _ _ _ hlow hhigh
  have hfan : decodedFan c.encodedFrame = c.fan.getD .auto := decodedFan_encodeFrame _ _ _ _ _ hlow hhigh
  rw [decodedResponse, receptionResponse_of_valid hvalid, hmode]
  refine ⟨rfl, fun h => ?_⟩
  rw [h.afterDecode_of_ok rfl rfl, ClimateState.merge_updateOf_some, htemp, hfan]

/-- Settles O46: the words driven unpack to the frame built, from whose fields the climate state is read back. -/
theorem encodeThenDecodeRoundTrip : Obligations.EncodeThenDecodeRoundTrip := by
  intro c unread s a d a' d' hlow hhigh hs
  refine ⟨_, _, _, exec_encode_of_climateState a d hs hlow hhigh, State.lastResponse_respond _ _, rfl, rfl, ?_⟩
  intro u hn hw0 hw1
  have hfr : unpack u.rx.w0 u.rx.w1 = c.encodedFrame := by rw [hw0, hw1, unpack_word]
  exact ⟨_, _, exec_decode_complete a' d' hn hfr, State.lastResponse_respond _ _,
    ClimateState.afterDecode_encodedFrame hlow hhigh⟩

end Sys2Proof.Machine
end

section
/-! The exceptions (R220 to R230): every status but OK tells which instruction gave it, and on what inputs. -/

namespace Sys2Proof.Machine

/-! ### An index out of range (R223) -/

/-- An index out of range raises `BAD_OPERAND` before the frame register is looked at. -/
theorem exec_of_outOfRange {i : Instr} (h : OutOfRange i) (s : State) : exec i s = raise .badOperand s := by
  cases i with
  | frdb a d => simp only [exec, execFrdb, byteAddress_of_ge h]
  | fwrb a d => simp only [exec, execFwrb, byteAddress_of_ge h]
  | frdf a d => simp only [exec, execFrdf, fieldId_none h]
  | fwrf a d => simp only [exec, execFwrf, fieldId_none h]
  | frdbit a d => simp only [exec, execFrdbit, bitAddress_of_ge h]
  | fwrbit a d => simp only [exec, execFwrbit, bitAddress_of_ge h]
  | csum a d => simp only [exec, execCsum, halfIndex_of_ge h]
  | _ => exact h.elim

/-! ### What a status tells (R220 to R223) -/

/-- What the host learns from the status of a response that took `s` to `t` by `i`: of a failure, which
instruction raised it and on what input, and of a short input that the frame register stands. -/
def Status.Explained (i : Instr) (s t : State) : Status → Prop
  | .ok => True
  | .unhandledShort => (∃ a d, i = .decode a d) ∧ s.rx.n.toNat < 2 ∧ t.fr = s.fr
  | .unhandledCsum => Receives i
  | .badOperand => OutOfRange i

/-- If the operation answers, the status of its response is explained. -/
def AnswersExplained (i : Instr) (s : State) (o : Host.Outcome State Fault Refusal) : Prop :=
  ∀ t r, o = .next t → t.lastResponse = some r → r.status.Explained i s t

theorem complete_lastResponse {fr : Frame} {r r' : Response} {s t : State} (h : complete fr r s = .next t)
    (hr : t.lastResponse = some r') : r' = r := by
  cases h
  rw [State.lastResponse_respond] at hr
  exact (Option.some.inj hr).symm

section
variable {i : Instr} {s : State}

theorem AnswersExplained.of_complete {fr : Frame} {r : Response}
    (hr : r.status.Explained i s ((s.setFr fr).respond r)) : AnswersExplained i s (complete fr r s) := by
  rintro _ r' ⟨⟩ hlast
  rw [complete_lastResponse rfl hlast]
  exact hr

theorem AnswersExplained.of_ok {r : Response} (hok : r.status = .ok) (fr : Frame) :
    AnswersExplained i s (complete fr r s) :=
  .of_complete (by rw [hok]; trivial)

theorem AnswersExplained.of_outOfRange (hi : OutOfRange i) : AnswersExplained i s (exec i s) := by
  rw [exec_of_outOfRange hi]
  exact .of_complete hi

/-- A reception of a frame ends with OK or with `UNHANDLED_CSUM` (R193, R201). -/
theorem AnswersExplained.of_receive (hi : Receives i) (fr : Frame) (mode : Option AbsMode) :
    AnswersExplained i s (receive fr mode s) := by
  rw [receive_next]
  by_cases hvalid : fr.Valid
  · rw [receptionResponse_of_valid hvalid]
    exact .of_ok rfl fr
  · rw [receptionResponse_of_not_valid hvalid]
    exact .of_complete hi

end

theorem exec_decode_answersExplained (a d : Byte) (s : State) :
    AnswersExplained (.decode a d) s (exec (.decode a d) s) := by
  rcases Nat.lt_or_ge s.rx.n.toNat 2 with hshort | henough
  · rw [exec_decode_short a d s hshort]
    exact .of_complete ⟨⟨a, d, rfl⟩, hshort, rfl⟩
  · rw [exec_decode a d s henough]
    exact .of_receive (by trivial) _ _

theorem exec_encode_answersExplained (a d : Byte) (s : State) :
    AnswersExplained (.encode a d) s (exec (.encode a d) s) := by
  intro t r h
  obtain ⟨mode, -, hexec⟩ := exec_encode_of_contract a d (inEncodeContract_of_exec h)
  exact AnswersExplained.of_ok rfl _ t r (hexec.symm.trans h)

theorem exec_adjust_answersExplained (a d : Byte) (s : State) :
    AnswersExplained (.adjust a d) s (exec (.adjust a d) s) := by
  intro t r h
  obtain ⟨mode, hof, -⟩ := AbsMode.ofCode_some (inAdjustContract_of_exec h)
  exact AnswersExplained.of_ok rfl _ t r ((exec_adjust a d s mode hof).symm.trans h)

/-- The status of every response is explained: an index in range completes, the codec operations complete when they
answer at all, and a reception fails only for its words or its sums. -/
theorem exec_answersExplained (i : Instr) (s : State) : AnswersExplained i s (exec i s) := by
  by_cases hi : OutOfRange i
  · exact .of_outOfRange hi
  cases i with
  | frdb a d => rw [exec_frdb d s (byteAddress_of_lt (Nat.lt_of_not_le hi))]; exact .of_ok rfl _
  | fwrb a d => rw [exec_fwrb d s (byteAddress_of_lt (Nat.lt_of_not_le hi))]; exact .of_ok rfl _
  | frdf a d =>
    obtain ⟨f, hf⟩ := fieldId_some (Nat.le_of_not_lt hi)
    rw [exec_frdf d s hf]; exact .of_ok rfl _
  | fwrf a d =>
    obtain ⟨f, hf⟩ := fieldId_some (Nat.le_of_not_lt hi)
    rw [exec_fwrf d s hf]; exact .of_ok rfl _
  | frdbit a d => rw [exec_frdbit d s (bitAddress_of_lt (Nat.lt_of_not_le hi))]; exact .of_ok rfl _
  | fwrbit a d => rw [exec_fwrbit d s (bitAddress_of_lt (Nat.lt_of_not_le hi))]; exact .of_ok rfl _
  | csum a d => rw [exec_csum d s (halfIndex_of_lt (Nat.lt_of_not_le hi))]; exact .of_ok rfl _
  | fclr | fmirror | fpack | funpack | csapply | cschk => exact .of_ok rfl _
  | encode a d => exact exec_encode_answersExplained a d s
  | adjust a d => exact exec_adjust_answersExplained a d s
  | decode a d => exact exec_decode_answersExplained a d s
  | acOff | acAuto | acCool | acDry | acFan | acHeat | acRsv5 | acRsv6 | acRsv7 | cfEncoded =>
    exact .of_receive (by trivial) _ _

/-- Settles O54: an index out of range raises at once, and the status is explained by nothing else. -/
theorem badOperandExactlyOutOfRange : Obligations.BadOperandExactlyOutOfRange := by
  intro i s
  refine ⟨fun hi => answersBadOperand_of_raise (exec_of_outOfRange hi s), fun t r h hr hbad => ?_⟩
  have hexplained := exec_answersExplained i s t r h hr
  rwa [hbad] at hexplained

/-- Settles O55: each unhandled status is explained by its cause, and a short input is answered by its failure. -/
theorem unhandledComesFromReception : Obligations.UnhandledComesFromReception := by
  intro i s t r h hr
  have hexplained := exec_answersExplained i s t r h hr
  refine ⟨fun hcsum => ?_, ⟨fun hshort => ?_, ?_⟩, fun hshort => ?_⟩
  · rwa [hcsum] at hexplained
  · rw [hshort] at hexplained
    obtain ⟨hdecode, hwords, -⟩ := hexplained
    exact ⟨hdecode, hwords⟩
  · rintro ⟨⟨a, d, rfl⟩, hwords⟩
    rw [exec_decode_short a d s hwords] at h
    rw [complete_lastResponse h hr]
    rfl
  · rw [hshort] at hexplained
    obtain ⟨-, -, hfr⟩ := hexplained
    exact hfr

end Sys2Proof.Machine
end

section
/-! The two steps that execute no instruction: the idle step (R251; log entry 2) and the reset event (R250; log
entry 13). -/

namespace Sys2Proof.Machine

/-- The reset event leaves in the frame register what `FCLR` leaves there (R250, R110). -/
theorem exec_fclr_fr_applyReset (a d : Byte) (s u : State) :
    ∃ t, exec (.fclr a d) s = .next t ∧ t.fr = u.applyReset.fr := by
  obtain ⟨t, ht, -, hfr⟩ := complete_answered Frame.zero (Response.ok 0) s
  exact ⟨t, ht, hfr.trans u.applyReset_fr.symm⟩

/-- Settles O3: the reset event takes itself off the host's list and writes the zero frame, as `FCLR` does. -/
theorem idleAndResetEvent : Obligations.IdleAndResetEvent := by
  refine ⟨fun s h => step_of_pending_nil h, fun s rest h => ?_⟩
  have hzero : ∀ k, (s.withPending rest).applyReset.fr.byte k = 0 := fun k => by
    rw [State.applyReset_fr, Frame.byte_zero]
  exact ⟨(s.withPending rest).applyReset, step_of_reset h rfl, hzero, rfl, rfl, rfl, rfl,
    fun a d => exec_fclr_fr_applyReset a d s _⟩

end Sys2Proof.Machine
end
